-- ==== Sys2Proof/Word.lean ====
section
/-! DEFINITION. The word types of the block: bytes, instance identifiers and the 20-bit command word. -/

namespace Sys2Proof

/-- A register, a port address or a data byte: `W_REG`, `W_PORT` and `W_DATA` are 8 bits (R11). Bit 0 is
the least significant bit (R13). -/
abbrev Byte := BitVec 8

/-- The identifier of a controller (R8, R11 `INSTANCES`). -/
abbrev InstanceId := BitVec 8

/-- The command word of R52: `CMD` in bits 19:16, `A` in bits 15:8, `D` in bits 7:0. -/
abbrev CommandWord := BitVec 20

end Sys2Proof
end

