-- ==== Sys2Proof/Syntax.lean ====
section
/-! DEFINITION. The commands of the block: one constructor per row of spec/opcode_table.json. Operands are
those of R54; an ignored field of the command word is no operand. -/

namespace Sys2Proof

/-- A command (R53, R55, R56, R57). `port` is the address `A` of a row that takes several addresses. -/
inductive Instr where
  -- IN family, 40_port_read.md
  | inP0
  | inP1
  | inP2
  | inP3
  | inP4
  | inP5
  | inNullLo (port : Byte)
  | inVcnt (port : Byte)
  | inHcnt (port : Byte)
  | inVdata (port : Byte)
  | inVstat (port : Byte)
  | inC0
  | inDC
  | inC1
  | inDD
  | inNullHi (port : Byte)
  -- OUT family, 41_port_write.md
  | outP0 (value : Byte)
  | outP1 (value : Byte)
  | outP2 (value : Byte)
  | outP3 (value : Byte)
  | outP4 (value : Byte)
  | outP5 (value : Byte)
  | outP6 (value : Byte)
  | outMemctl (port value : Byte)
  | outIoctl (port value : Byte)
  | outPsg (port value : Byte)
  | outVdata (port value : Byte)
  | outVctl (port value : Byte)
  | outNullHi (port value : Byte)
  -- side-band commands, 42_serial.md, 43_link.md, 44_persistence.md, 70_reset_and_hazards.md
  | advance (n : BitVec 16)
  | receive (b : Byte)
  | reset
  | link (other : InstanceId)
  | unlink
  | save
  | load (b0 b1 : Byte)
  | baud (selector : BitVec 2)
  -- the reserved command codes 0x9, 0xA and 0xB, 0xC to 0xF (R58), with the rest of the word
  | reserved9 (rest : BitVec 16)
  | reservedAB (rest : BitVec 17)
  | reservedCF (rest : BitVec 18)
  deriving DecidableEq, Repr

end Sys2Proof
end

