-- ==== Sys2Proof/Decode.lean ====
section
/-! DEFINITION. The decoder of the command word (R52 to R59), total on every 20-bit word; the encoder; the
opcode table as rows of mask and match; and the reading of a number as a command word. -/

namespace Sys2Proof

/-! ### The fields of the command word (R52) -/

/-- `CMD`, bits 19:16. -/
def fieldCmd (w : CommandWord) : BitVec 4 := w.extractLsb' 16 4

/-- `A`, bits 15:8. -/
def fieldA (w : CommandWord) : Byte := w.extractLsb' 8 8

/-- `D`, bits 7:0. -/
def fieldD (w : CommandWord) : Byte := w.extractLsb' 0 8

/-- The word with the given fields (R52). -/
def packWord (cmd : BitVec 4) (a d : Byte) : CommandWord := cmd ++ a ++ d

/-! ### Decoding -/

/-- The range of a port address, `A[7:6]` (R54). -/
def portRange (a : Byte) : BitVec 2 := a.extractLsb' 6 2

/-- `A[0]`: an odd port address (R43, R54). -/
def portOdd (a : Byte) : Bool := a.getLsbD 0

/-- The addresses of 0xC0 to 0xFF that a read decodes (R55 rows 12 to 15). -/
def isInputPort (a : Byte) : Bool :=
  a == 0xC0 || a == 0xC1 || a == 0xDC || a == 0xDD

/-- The row of an IN command at port `a`: the first that matches (R55). -/
def decodeIn (a : Byte) : Instr :=
  if a = 0x00 then .inP0
  else if a = 0x01 then .inP1
  else if a = 0x02 then .inP2
  else if a = 0x03 then .inP3
  else if a = 0x04 then .inP4
  else if a = 0x05 then .inP5
  else if portRange a = 0 then .inNullLo a
  else if portRange a = 1 then (if portOdd a then .inHcnt a else .inVcnt a)
  else if portRange a = 2 then (if portOdd a then .inVstat a else .inVdata a)
  else if a = 0xC0 then .inC0
  else if a = 0xDC then .inDC
  else if a = 0xC1 then .inC1
  else if a = 0xDD then .inDD
  else .inNullHi a

/-- The row of an OUT command at port `a` with `value`: the first that matches (R56). -/
def decodeOut (a value : Byte) : Instr :=
  if a = 0x00 then .outP0 value
  else if a = 0x01 then .outP1 value
  else if a = 0x02 then .outP2 value
  else if a = 0x03 then .outP3 value
  else if a = 0x04 then .outP4 value
  else if a = 0x05 then .outP5 value
  else if a = 0x06 then .outP6 value
  else if portRange a = 0 then (if portOdd a then .outIoctl a value else .outMemctl a value)
  else if portRange a = 1 then .outPsg a value
  else if portRange a = 2 then (if portOdd a then .outVctl a value else .outVdata a value)
  else .outNullHi a value

/-- The command with the given fields: `CMD` selects the format and the operation (R53, R57), `A` and `D`
hold the operands (R54). Codes 0x9 to 0xF are the reserved rows (R58). -/
def decodeFields (cmd : BitVec 4) (a d : Byte) : Instr :=
  if cmd = 0x0 then decodeIn a
  else if cmd = 0x1 then decodeOut a d
  else if cmd = 0x2 then .advance (a ++ d)
  else if cmd = 0x3 then .receive d
  else if cmd = 0x4 then .reset
  else if cmd = 0x5 then (if portOdd a then .link d else .unlink)
  else if cmd = 0x6 then .save
  else if cmd = 0x7 then .load a d
  else if cmd = 0x8 then .baud (d.extractLsb' 0 2)
  else if cmd = 0x9 then .reserved9 (a ++ d)
  else if cmd.extractLsb' 1 3 = 0b101 then .reservedAB (cmd.extractLsb' 0 1 ++ a ++ d)
  else .reservedCF (cmd.extractLsb' 0 2 ++ a ++ d)

/-- The command a 20-bit word spells. Every word is some row's (R52, R58, R59); `w[8]`, which selects LINK
or UNLINK (R57), is bit 0 of `A`. -/
def decode (w : CommandWord) : Instr :=
  decodeFields (fieldCmd w) (fieldA w) (fieldD w)

/-! ### Encoding -/

/-- The fields of a command's canonical word: every ignored field is 0 (R54). -/
def encodeFields : Instr → BitVec 4 × Byte × Byte
  | .inP0 => (0x0, 0x00, 0)
  | .inP1 => (0x0, 0x01, 0)
  | .inP2 => (0x0, 0x02, 0)
  | .inP3 => (0x0, 0x03, 0)
  | .inP4 => (0x0, 0x04, 0)
  | .inP5 => (0x0, 0x05, 0)
  | .inNullLo a => (0x0, a, 0)
  | .inVcnt a => (0x0, a, 0)
  | .inHcnt a => (0x0, a, 0)
  | .inVdata a => (0x0, a, 0)
  | .inVstat a => (0x0, a, 0)
  | .inC0 => (0x0, 0xC0, 0)
  | .inDC => (0x0, 0xDC, 0)
  | .inC1 => (0x0, 0xC1, 0)
  | .inDD => (0x0, 0xDD, 0)
  | .inNullHi a => (0x0, a, 0)
  | .outP0 v => (0x1, 0x00, v)
  | .outP1 v => (0x1, 0x01, v)
  | .outP2 v => (0x1, 0x02, v)
  | .outP3 v => (0x1, 0x03, v)
  | .outP4 v => (0x1, 0x04, v)
  | .outP5 v => (0x1, 0x05, v)
  | .outP6 v => (0x1, 0x06, v)
  | .outMemctl a v => (0x1, a, v)
  | .outIoctl a v => (0x1, a, v)
  | .outPsg a v => (0x1, a, v)
  | .outVdata a v => (0x1, a, v)
  | .outVctl a v => (0x1, a, v)
  | .outNullHi a v => (0x1, a, v)
  | .advance n => (0x2, n.extractLsb' 8 8, n.extractLsb' 0 8)
  | .receive b => (0x3, 0, b)
  | .reset => (0x4, 0, 0)
  | .link other => (0x5, 0x01, other)
  | .unlink => (0x5, 0, 0)
  | .save => (0x6, 0, 0)
  | .load b0 b1 => (0x7, b0, b1)
  | .baud sel => (0x8, 0, (0 : BitVec 6) ++ sel)
  | .reserved9 r => (0x9, r.extractLsb' 8 8, r.extractLsb' 0 8)
  | .reservedAB r => ((0b101 : BitVec 3) ++ r.extractLsb' 16 1, r.extractLsb' 8 8, r.extractLsb' 0 8)
  | .reservedCF r => ((0b11 : BitVec 2) ++ r.extractLsb' 16 2, r.extractLsb' 8 8, r.extractLsb' 0 8)

/-- The canonical command word of a command (R54, R60). -/
def encode (i : Instr) : CommandWord :=
  packWord (encodeFields i).1 (encodeFields i).2.1 (encodeFields i).2.2

/-- The bits of a command's word that its rule ignores: they "may hold any value" and do "not change the
command's meaning" (R54). The reserved rows have none: no rule names an ignored field of theirs. -/
def ignoredBits : Instr → CommandWord
  | .inP0 | .inP1 | .inP2 | .inP3 | .inP4 | .inP5 => 0x000FF
  | .inNullLo _ | .inVcnt _ | .inHcnt _ | .inVdata _ | .inVstat _ => 0x000FF
  | .inC0 | .inDC | .inC1 | .inDD | .inNullHi _ => 0x000FF
  | .outP0 _ | .outP1 _ | .outP2 _ | .outP3 _ | .outP4 _ | .outP5 _ | .outP6 _ => 0
  | .outMemctl _ _ | .outIoctl _ _ | .outPsg _ _ | .outVdata _ _ | .outVctl _ _ | .outNullHi _ _ => 0
  | .advance _ => 0
  | .receive _ => 0x0FF00
  | .reset => 0x0FFFF
  | .link _ => 0x0FE00
  | .unlink => 0x0FEFF
  | .save => 0x0FFFF
  | .load _ _ => 0
  | .baud _ => 0x0FFFC
  | .reserved9 _ | .reservedAB _ | .reservedCF _ => 0

/-! ### The opcode table -/

/-- One row of spec/opcode_table.json: a word belongs to it when its bits under `mask` are `pattern`. -/
structure OpcodeRow where
  priority : Nat
  pattern : CommandWord
  mask : CommandWord
  deriving DecidableEq, Repr

/-- The IN rows of spec/opcode_table.json. -/
def opcodeRowsIn : List OpcodeRow :=
  [ ⟨1, 0x00000, 0xFFF00⟩, ⟨2, 0x00100, 0xFFF00⟩, ⟨3, 0x00200, 0xFFF00⟩, ⟨4, 0x00300, 0xFFF00⟩,
    ⟨5, 0x00400, 0xFFF00⟩, ⟨6, 0x00500, 0xFFF00⟩, ⟨7, 0x00000, 0xFC000⟩, ⟨8, 0x04000, 0xFC100⟩,
    ⟨9, 0x04100, 0xFC100⟩, ⟨10, 0x08000, 0xFC100⟩, ⟨11, 0x08100, 0xFC100⟩, ⟨12, 0x0C000, 0xFFF00⟩,
    ⟨13, 0x0DC00, 0xFFF00⟩, ⟨14, 0x0C100, 0xFFF00⟩, ⟨15, 0x0DD00, 0xFFF00⟩, ⟨16, 0x0C000, 0xFC000⟩ ]

/-- The OUT rows of spec/opcode_table.json. -/
def opcodeRowsOut : List OpcodeRow :=
  [ ⟨17, 0x10000, 0xFFF00⟩, ⟨18, 0x10100, 0xFFF00⟩, ⟨19, 0x10200, 0xFFF00⟩, ⟨20, 0x10300, 0xFFF00⟩,
    ⟨21, 0x10400, 0xFFF00⟩, ⟨22, 0x10500, 0xFFF00⟩, ⟨23, 0x10600, 0xFFF00⟩, ⟨24, 0x10000, 0xFC100⟩,
    ⟨25, 0x10100, 0xFC100⟩, ⟨26, 0x14000, 0xFC000⟩, ⟨27, 0x18000, 0xFC100⟩, ⟨28, 0x18100, 0xFC100⟩,
    ⟨29, 0x1C000, 0xFC000⟩ ]

/-- The side-band and reserved rows of spec/opcode_table.json. -/
def opcodeRowsSide : List OpcodeRow :=
  [ ⟨30, 0x20000, 0xF0000⟩, ⟨31, 0x30000, 0xF0000⟩, ⟨32, 0x40000, 0xF0000⟩, ⟨33, 0x50100, 0xF0100⟩,
    ⟨34, 0x50000, 0xF0100⟩, ⟨35, 0x60000, 0xF0000⟩, ⟨36, 0x70000, 0xF0000⟩, ⟨37, 0x80000, 0xF0000⟩,
    ⟨38, 0x90000, 0xF0000⟩, ⟨39, 0xA0000, 0xE0000⟩, ⟨40, 0xC0000, 0xC0000⟩ ]

/-- spec/opcode_table.json, in priority order. -/
def opcodeRows : List OpcodeRow := opcodeRowsIn ++ opcodeRowsOut ++ opcodeRowsSide

/-- The priority of the first row a word belongs to (30_encoding.md, opening). -/
def firstRow (w : CommandWord) : Option Nat :=
  (opcodeRows.find? fun r => w &&& r.mask == r.pattern).map (·.priority)

/-- The priority of a command's own row. -/
def Instr.row : Instr → Nat
  | .inP0 => 1
  | .inP1 => 2
  | .inP2 => 3
  | .inP3 => 4
  | .inP4 => 5
  | .inP5 => 6
  | .inNullLo _ => 7
  | .inVcnt _ => 8
  | .inHcnt _ => 9
  | .inVdata _ => 10
  | .inVstat _ => 11
  | .inC0 => 12
  | .inDC => 13
  | .inC1 => 14
  | .inDD => 15
  | .inNullHi _ => 16
  | .outP0 _ => 17
  | .outP1 _ => 18
  | .outP2 _ => 19
  | .outP3 _ => 20
  | .outP4 _ => 21
  | .outP5 _ => 22
  | .outP6 _ => 23
  | .outMemctl _ _ => 24
  | .outIoctl _ _ => 25
  | .outPsg _ _ => 26
  | .outVdata _ _ => 27
  | .outVctl _ _ => 28
  | .outNullHi _ _ => 29
  | .advance _ => 30
  | .receive _ => 31
  | .reset => 32
  | .link _ => 33
  | .unlink => 34
  | .save => 35
  | .load _ _ => 36
  | .baud _ => 37
  | .reserved9 _ => 38
  | .reservedAB _ => 39
  | .reservedCF _ => 40

/-! ### Numbers as command words -/

/-- Why a number spells no command word. -/
inductive DecodeReject where
  /-- A bit above bit 19 is set: every command word is 20 bits (R52, R59). DESIGN CHOICE, safe; log 12. -/
  | tooWide
  deriving DecidableEq, Repr

/-- The command word of a number of `nbits` bits, or why it is none. -/
def commandWordOf (nbits w : Nat) : Except DecodeReject CommandWord :=
  if w % 2 ^ nbits < 2 ^ 20 then .ok (BitVec.ofNat 20 (w % 2 ^ nbits)) else .error .tooWide

/-- The command the decoder reads from a table word of `nbits` bits. -/
def decodeTableWord (nbits w : Nat) : Option Instr :=
  match commandWordOf nbits w with
  | .ok c => some (decode c)
  | .error _ => none

end Sys2Proof
end

