-- ==== Sys2Proof/Config.lean ====
section
/-! DEFINITION. The implementation parameters of R11: what they are, the constraints the spec puts on them,
their reference values, and the one uninterpreted free value. The parameters are data (log 1), so that a
claim over all states is a claim for every value of every parameter. -/

namespace Sys2Proof

/-- The cartridge region `REGION(i)` (R11, D27): `Standard`, `JapanVariant` or another value. Every value
other than `JapanVariant` behaves alike (log 31). -/
inductive Region where
  | standard
  | japanVariant
  | other (tag : Nat)
  deriving DecidableEq, Repr

/-- The four rates the baud selector can give (R11, R12, R91). -/
inductive BaudRate where
  | b4800
  | b2400
  | b1200
  | b300
  deriving DecidableEq, Repr

/-- A rate in bits a second (R91). -/
def BaudRate.hz : BaudRate → Nat
  | .b4800 => 4800
  | .b2400 => 2400
  | .b1200 => 1200
  | .b300 => 300

/-- The nine 8-bit registers of the register bank (R20). Also the shape of the parameter `RESET_VALUE`,
which has one byte for each register (R11, R22). -/
structure RegBank where
  port0 : Byte
  port1 : Byte
  port2 : Byte
  port3 : Byte
  port4 : Byte
  port5 : Byte
  port6 : Byte
  port3F : Byte
  port3FHC : Byte
  deriving DecidableEq, Repr

/-- The configuration of one controller, fixed for a run (R19): its identifier, `REGION(i)` and
`NMI_PATH(i)`. -/
structure InstanceConfig where
  id : InstanceId
  region : Region
  nmiPath : Bool
  deriving DecidableEq, Repr

/-- The block-wide parameters (R19): `HC_TRIGGER_MASK` and `RESET_VALUE`. -/
structure BlockConfig where
  hcTriggerMask : Byte
  resetValue : RegBank
  deriving DecidableEq, Repr

/-- How many bits of a byte are set. -/
def bitCount (v : Byte) : Nat :=
  ((List.range 8).filter fun k => v.getLsbD k).length

/-- What the spec asks of the parameters: `RESET_VALUE(Port5)[0] = 0` (R22) and a trigger mask with exactly
two bits set (D11). -/
abbrev BlockConfig.wf (c : BlockConfig) : Prop :=
  c.resetValue.port5.getLsbD 0 = false ∧ bitCount c.hcTriggerMask = 2

namespace Config

/-- `F_REF`: the reference clock in Hz (R11, R92). -/
def fRef : Nat := 3579545

/-- `BITS_PER_BYTE`: the bit-times of a transferred byte (R11, R92). -/
def bitsPerByte : Nat := 8

/-- The reference instance of `RESET_VALUE` (R22). PRESUMED, unsafe: the spec marks the values as general
knowledge; log 2. -/
def referenceResetValue : RegBank where
  port0 := 0xC0
  port1 := 0x7F
  port2 := 0xFF
  port3 := 0x00
  port4 := 0xFF
  port5 := 0x00
  port6 := 0xFF
  port3F := 0x00
  port3FHC := 0x00

/-- The reference values of the block-wide parameters (R11, R22). PRESUMED, unsafe; log 2 and 3. -/
def reference : BlockConfig where
  hcTriggerMask := 0x0A
  resetValue := referenceResetValue

/-- The reference `INSTANCES` = {0, 1}, each with region `Standard` and a reachable interrupt path
(R11, 95_test_vectors.md). PRESUMED, unsafe; log 3. -/
def referenceInstances : List InstanceConfig :=
  [ { id := 0, region := .standard, nmiPath := true },
    { id := 1, region := .standard, nmiPath := true } ]

/-- A byte nothing constrains: the draw of the command that `State.withFetchWord` issues (R9, D1; log 6). -/
opaque freeDraw : Nat → Byte

end Config

end Sys2Proof
end

