-- ==== Sys2Proof/Machine/Flags.lean ====
section
/-! DEFINITION. The fields of Port5 and Port2, every change of them, the baud selector, the transfer length
and the two edge conditions, as functions on bytes (10_state.md section 5, R34). -/

namespace Sys2Proof.Machine

/-! ### Port5 (R28, R29) -/

/-- TXFL, bit 0: a transfer is in progress. -/
def txfl (p5 : Byte) : Bool := p5.getLsbD 0

/-- RXRD, bit 1: a received byte waits in Port4. -/
def rxrd (p5 : Byte) : Bool := p5.getLsbD 1

/-- INT, bit 3: Receive requests an NMI. -/
def intEnable (p5 : Byte) : Bool := p5.getLsbD 3

/-- TON, bit 4: transmit enable. -/
def ton (p5 : Byte) : Bool := p5.getLsbD 4

/-- RON, bit 5: receive enable. -/
def ron (p5 : Byte) : Bool := p5.getLsbD 5

/-- BS, bits 7:6: the baud selector, bit 7 the more significant (R29, R91; D13, log 19). -/
def baudSelector (p5 : Byte) : BitVec 2 := p5.extractLsb' 6 2

/-- TXFL set, the other bits kept (R94). -/
def setTxfl (p5 : Byte) : Byte := p5 ||| 0x01

/-- TXFL cleared, the other bits kept (R97). -/
def clearTxfl (p5 : Byte) : Byte := p5 &&& 0xFE

/-- RXRD set, the other bits kept (R99). -/
def setRxrd (p5 : Byte) : Byte := p5 ||| 0x02

/-- RXRD cleared, the other bits kept (R67). -/
def clearRxrd (p5 : Byte) : Byte := p5 &&& 0xFD

/-- Port5 after an OUT 0x05: control bits 7:3 from the value, status bits 2:0 kept (R83, R30). -/
def writeControl (old value : Byte) : Byte := (old &&& 0x07) ||| (value &&& 0xF8)

/-! ### Rates and lengths -/

/-- `BAUD(sel)` (R91; D13, log 19). -/
def baudRateOf (sel : BitVec 2) : BaudRate :=
  if sel = 0 then .b4800
  else if sel = 1 then .b2400
  else if sel = 2 then .b1200
  else .b300

/-- The least integer not less than `a / b` (R16), for `b` positive. -/
def ceilDiv (a b : Nat) : Nat := (a + b - 1) / b

/-- `TXLEN(rate)` in reference clocks; the ceiling is taken before the multiplication (R92). -/
def txlen (r : BaudRate) : Nat := ceilDiv Config.fRef r.hz * Config.bitsPerByte

/-! ### Edges -/

/-- The condition of the Port2 NMI: bit 7 of the written value is 0 and bit 6 goes from 1 to 0
(R80; D9, log 16). -/
def nmiEdge (old new : Byte) : Bool :=
  !new.getLsbD 7 && old.getLsbD 6 && !new.getLsbD 6

/-- The trigger bits that go from clear to set in an odd write of 0x07..0x3F (R86; D11, log 18). -/
def hcRise (mask old value : Byte) : Byte := value &&& mask &&& ~~~old

end Sys2Proof.Machine
end

