-- ==== Sys2Proof/Machine/Operands.lean ====
section
/-! DEFINITION. How operands, draws and registers combine into the byte a command returns or stores: the pad
byte of port 0x00, the cross-wired merge of port 0x01, the Port3F byte and its merge, and the elapsed count. -/

namespace Sys2Proof.Machine

/-- ADVANCE's operand, an unsigned clock count (R54; D16, log 22). -/
def elapsed (n : BitVec 16) : Nat := n.toNat

/-- The byte IN 0x00 returns for a draw: bit 6 is set unless the region is `JapanVariant` (R63). -/
def miscByte (region : Region) (v : Byte) : Byte :=
  if region = .japanVariant then v else v ||| 0x40

/-! ### The port 0x01 merge (R64, R102, R103) -/

/-- `sigma`: the peer's line that is wired to a result bit (R102). Bit 7 is not wired. -/
def sigma : Nat → Nat
  | 0 => 2
  | 1 => 3
  | 2 => 0
  | 3 => 1
  | 4 => 5
  | 5 => 4
  | i => i

/-- `isOutputBit(P, j)`: the instance with bank `p` drives its line `j` as output (R103). -/
def isOutputBit (p : RegBank) (j : Nat) : Bool :=
  if j = 4 ∧ ton p.port5 = true then true
  else if j = 5 ∧ ron p.port5 = true then false
  else !p.port2.getLsbD j

/-- The byte with bit `i` made `b`. -/
def withBit (r : Byte) (i : Nat) (b : Bool) : Byte :=
  if b then r ||| BitVec.ofNat 8 (2 ^ i) else r &&& ~~~(BitVec.ofNat 8 (2 ^ i))

/-- The seven data lines, in the order the merge takes them (R64). -/
def dataLines : List Nat := [0, 1, 2, 3, 4, 5, 6]

/-- Result bit `i` taken from the peer's line `sigma i` where the peer drives that line (R64;
D7, log 15: the test is made at the peer's source line). -/
def mergeLine (p : RegBank) (r : Byte) (i : Nat) : Byte :=
  if isOutputBit p (sigma i) then withBit r i (p.port1.getLsbD (sigma i)) else r

/-- The pad byte of port 0x01 with its seven lines and no peer: bit 7 cleared (R64; D6, log 15). -/
def padMask (base : Byte) : Byte := base &&& 0x7F

/-- The byte IN 0x01 returns with a peer whose bank is `p` (R64). -/
def padMerge (p : RegBank) (base : Byte) : Byte :=
  dataLines.foldl (mergeLine p) (padMask base)

/-! ### Port3F -/

/-- The byte IN 0xC1 and IN 0xDD return: bits 5:0 of the draw, bits 7:6 of Port3F (R75). -/
def portBByte (port3F v : Byte) : Byte := (v &&& 0x3F) ||| (port3F &&& 0xC0)

/-- The Port3F byte of an odd write in 0x07..0x3F: bit 7 to bit 7, bit 5 to bit 6, complemented whole under
`JapanVariant` (R86; D12, log 17). -/
def ioctlByte (region : Region) (value : Byte) : Byte :=
  let p := (value &&& 0x80) ||| ((value &&& 0x20) <<< 1)
  if region = .japanVariant then ~~~p else p

end Sys2Proof.Machine
end

