-- ==== Sys2Proof/Machine/State.lean ====
section
/-! DEFINITION. The state of the system: the controllers with everything the spec gives them, the parameters,
the inputs of the steps to come and the observation so far; the refusals; and the boot state. -/

namespace Sys2Proof.Machine

/-! ### One controller -/

/-- The serial state of R35. -/
structure Serial where
  active : Bool
  clocksRemaining : Int
  baudRate : BaudRate
  sendBuffer : Byte
  deriving DecidableEq, Repr

/-- One controller: its configuration (R19) and its three pieces of state (R18): the register bank, the
serial state and the link reference (R37). -/
structure Controller where
  config : InstanceConfig
  bank : RegBank
  serial : Serial
  peer : Option InstanceId
  deriving DecidableEq, Repr

/-! ### The observation of a run (R10) -/

/-- A call the block makes to a collaborator (R125). -/
inductive DeviceCall where
  /-- AudioDevice.WriteStereoRegister -/
  | writeStereoRegister (v : Byte)
  /-- AudioDevice.WriteToneRegister -/
  | writeToneRegister (v : Byte)
  /-- MemoryController.SetMemoryControlRegister -/
  | setMemoryControlRegister (v : Byte)
  /-- VideoDevice.WriteData -/
  | writeData (v : Byte)
  /-- VideoDevice.WriteControl -/
  | writeControl (v : Byte)
  /-- VideoDevice.LatchHCounter -/
  | latchHCounter
  deriving DecidableEq, Repr

/-- A read the block makes of a collaborator (R125). The accessor names of ports 0x00 and 0x01 are the
spec's own (D5, D6; log 32). -/
inductive DeviceRead where
  /-- InputDevice.GetMiscPort -/
  | getMiscPort
  /-- InputDevice.Port1PadByte -/
  | port1PadByte
  /-- InputDevice.GetPortA -/
  | getPortA
  /-- InputDevice.GetPortB -/
  | getPortB
  /-- VideoDevice.GetVCounter -/
  | getVCounter
  /-- VideoDevice.GetHCounter -/
  | getHCounter
  /-- VideoDevice.GetDataPort -/
  | getDataPort
  /-- VideoDevice.GetStatusFlags -/
  | getStatusFlags
  deriving DecidableEq, Repr

/-- An output event other than a diagnostic (R10), with the controller that makes it. -/
inductive Event where
  /-- a collaborator call with its argument -/
  | call (who : InstanceId) (what : DeviceCall)
  /-- a collaborator read with the drawn value -/
  | read (who : InstanceId) (source : DeviceRead) (drawn : Byte)
  /-- `RequestNMI()` of a controller (R117) -/
  | nmiRequest (who : InstanceId)
  /-- `PeerDelivery(self, P, b)` (R98) -/
  | peerDelivery (sender receiver : InstanceId) (b : Byte)
  deriving DecidableEq, Repr

/-- The diagnostic codes of R114. -/
inductive DiagCode where
  | dg1
  | dg2
  | dg3
  | dg4
  | dg5
  | dg6
  deriving DecidableEq, Repr

/-- A diagnostic of a controller. Advisory: no claim may rest on one (R114; log 8). -/
structure Diagnostic where
  who : InstanceId
  code : DiagCode
  deriving DecidableEq, Repr

/-- What a command returns to the host (R10): the byte of an IN, the two bytes of a SAVE. -/
inductive CommandResult where
  | byte (who : InstanceId) (v : Byte)
  | pair (who : InstanceId) (b0 b1 : Byte)
  deriving DecidableEq, Repr

/-! ### The system -/

/-- One command a host issues: the instance it is addressed to (R126), the command word (R52) and the draw
for the value it reads from a collaborator, if it reads one (R9; log 6). No command reads two. -/
structure Issue where
  target : InstanceId
  word : CommandWord
  draw : Byte
  deriving DecidableEq, Repr

/-- The system state. `config` and the controllers' `config` hold the parameters of R11, which no command
writes (R19; log 1). `pending`, `self` and `draw` are the inputs of R9: the commands to come, oldest first,
and the instance and the draw of the command being run (log 5, 6, 7). `results`, `events` and `diagnostics`
are the observation of R10, oldest first (log 8). The block has no memory and no program counter (R40, R21). -/
structure State where
  config : BlockConfig
  controllers : List Controller
  self : InstanceId
  draw : Byte
  pending : List Issue
  results : List CommandResult
  events : List Event
  diagnostics : List Diagnostic
  deriving DecidableEq, Repr

/-- The reasons a step can fault: none. "No exceptions/fatal aborts originate in this component under any
input" (R113; log 34). -/
inductive Fault where
  deriving DecidableEq, Repr

/-- The reasons a command is refused. A refused command changes no state, and a run with a refusal has no
observation (R115, R141; log 9). -/
inductive Refusal where
  /-- Raised by exec's arm of an instruction that has no meaning yet. Safe. -/
  | notModelled (mnemonic : String)
  /-- Raised by the three reserved rows, command codes 0x9 to 0xF (R58, R115). Safe. -/
  | reservedCommand
  /-- Raised by LINK to an identifier outside `INSTANCES` (R104, R115). Safe. -/
  | unknownPeer
  /-- Raised by every command addressed to an identifier outside `INSTANCES` (R126, R115). Safe. -/
  | unknownInstance
  /-- Raised by LOAD while a transfer is active (R111, R115). Safe. -/
  | loadDuringTransfer
  /-- Raised by IN 0x01 and by a completing ADVANCE when the link reference names no instance, which no run
  reaches: "a link reference never dangles" (R107; log 11). DESIGN CHOICE. Safe. -/
  | danglingLink
  deriving DecidableEq, Repr

/-! ### Boot (R130) -/

/-- A controller as boot leaves it: the values RESET writes (R129, R35), and no link (R37, R130;
D32, log 4). -/
def Controller.boot (resetValue : RegBank) (c : InstanceConfig) : Controller where
  config := c
  bank := resetValue
  serial :=
    { active := false
      clocksRemaining := 0
      baudRate := baudRateOf (baudSelector resetValue.port5)
      sendBuffer := 0x00 }
  peer := none

/-- The system at boot, with the reference values of the parameters (R11, R22; PRESUMED, unsafe, log 2
and 3), nothing issued and nothing observed. `self` and `draw` hold a DESIGN CHOICE (log 7): the step
writes both before any command reads them. -/
def State.reset : State where
  config := Config.reference
  controllers :=
    Config.referenceInstances.map (Controller.boot Config.reference.resetValue)
  self := 0
  draw := 0
  pending := []
  results := []
  events := []
  diagnostics := []

end Sys2Proof.Machine
end

