-- ==== Sys2Proof/Machine/Ops.lean ====
section
/-! DEFINITION. The operations every command is written over: finding and storing a controller, the outputs,
the NMI request, the serial transfer and the hand-over of a byte, reset, and the taking of an issue.

The block takes no exception and returns from none (R120, R121): the whole of its part in an interrupt is
`State.nmiRequest`, which every NMI source calls. -/

namespace Sys2Proof.Machine

/-- What a command answers. -/
abbrev StepResult := Host.Outcome State Fault Refusal

/-! ### Controllers -/

/-- The controller with an identifier, if `INSTANCES` has it. -/
def State.find (s : State) (i : InstanceId) : Option Controller :=
  s.controllers.find? fun c => c.config.id == i

/-- `INSTANCES`: the identifiers of the controllers (R11). -/
def State.ids (s : State) : List InstanceId := s.controllers.map (·.config.id)

/-- The controllers with `c` in the place of the first that has its identifier. -/
def putIn : List Controller → Controller → List Controller
  | [], _ => []
  | d :: ds, c => if d.config.id = c.config.id then c :: ds else d :: putIn ds c

/-- The state with `c` in the place of the controller that has its identifier. -/
def State.put (s : State) (c : Controller) : State :=
  { s with controllers := putIn s.controllers c }

/-- Runs a command on the addressed controller, "the current instance" (R15); an identifier outside
`INSTANCES` is refused (R126). -/
def State.onSelf (s : State) (k : Controller → StepResult) : StepResult :=
  match s.find s.self with
  | some c => k c
  | none => .refused .unknownInstance

/-! ### Registers by name (R15 `x[r]`, R20) -/

/-- The registers of the bank. -/
inductive Reg where
  | port0
  | port1
  | port2
  | port3
  | port4
  | port5
  | port6
  | port3F
  | port3FHC
  deriving DecidableEq, Repr

/-- `x[r]`: the value of a register. -/
def bankRead (b : RegBank) : Reg → Byte
  | .port0 => b.port0
  | .port1 => b.port1
  | .port2 => b.port2
  | .port3 => b.port3
  | .port4 => b.port4
  | .port5 => b.port5
  | .port6 => b.port6
  | .port3F => b.port3F
  | .port3FHC => b.port3FHC

/-- `x[r] <- v`: the bank with one register written. -/
def bankWrite (b : RegBank) (r : Reg) (v : Byte) : RegBank :=
  match r with
  | .port0 => { b with port0 := v }
  | .port1 => { b with port1 := v }
  | .port2 => { b with port2 := v }
  | .port3 => { b with port3 := v }
  | .port4 => { b with port4 := v }
  | .port5 => { b with port5 := v }
  | .port6 => { b with port6 := v }
  | .port3F => { b with port3F := v }
  | .port3FHC => { b with port3FHC := v }

/-- `x[r]` of a controller. -/
def Controller.reg (c : Controller) (r : Reg) : Byte := bankRead c.bank r

/-- `x[r] <- v` of a controller. -/
def Controller.setReg (c : Controller) (r : Reg) (v : Byte) : Controller :=
  { c with bank := bankWrite c.bank r v }

/-! ### Outputs (R10) -/

/-- Records an output event. -/
def State.emit (s : State) (e : Event) : State := { s with events := s.events ++ [e] }

/-- `Diag(code)` of a controller (R114; log 8). -/
def State.diag (s : State) (who : InstanceId) (code : DiagCode) : State :=
  { s with diagnostics := s.diagnostics ++ [⟨who, code⟩] }

/-- Records what the command returns. -/
def State.answer (s : State) (r : CommandResult) : State := { s with results := s.results ++ [r] }

/-- `result v`: the byte an IN returns. -/
def State.answerByte (s : State) (v : Byte) : State := s.answer (.byte s.self v)

/-- `Call(Dev.Method, args)` of the current instance. -/
def State.call (s : State) (what : DeviceCall) : State := s.emit (.call s.self what)

/-- `Draw(Dev.Method)` of the current instance: the event, with the drawn value `s.draw` (R15; log 6). -/
def State.drawn (s : State) (source : DeviceRead) : State := s.emit (.read s.self source s.draw)

/-- A read that returns the collaborator's byte as it is. -/
def State.readDevice (s : State) (source : DeviceRead) : State :=
  (s.drawn source).answerByte s.draw

/-- How grave a diagnostic is (R114). -/
inductive DiagLevel where
  | informational
  | warning
  deriving DecidableEq, Repr

/-- The level of a diagnostic code (R114). -/
def DiagCode.level : DiagCode → DiagLevel
  | .dg1 => .informational
  | .dg2 => .informational
  | .dg3 => .warning
  | .dg4 => .warning
  | .dg5 => .informational
  | .dg6 => .warning

/-! ### Interrupt requests -/

/-- `NMIRequest()` performed by controller `c`: a request event through the controller's own path, or
diagnostic DG6 where the path is missing (R117, R118; D23, log 28). Nothing else changes (R120). -/
def State.nmiRequest (s : State) (c : Controller) : State :=
  if c.config.nmiPath then s.emit (.nmiRequest c.config.id) else s.diag c.config.id .dg6

/-! ### The serial transfer (42_serial.md) -/

/-- BeginTransfer (R94). -/
def Controller.beginTransfer (c : Controller) : Controller :=
  { c.setReg .port5 (setTxfl (c.reg .port5)) with
    serial :=
      { c.serial with clocksRemaining := (txlen c.serial.baudRate : Int), active := true } }

/-- The controller's own part of CompleteTransfer: TXFL cleared, idle (R97). -/
def Controller.endTransfer (c : Controller) : Controller :=
  { c.setReg .port5 (clearTxfl (c.reg .port5)) with serial := { c.serial with active := false } }

/-- The count down by `n` clocks (R95). -/
def Controller.countDown (c : Controller) (n : Nat) : Controller :=
  { c with serial := { c.serial with clocksRemaining := c.serial.clocksRemaining - (n : Int) } }

/-- Receive(b) performed by controller `c` (R99). -/
def State.receive (s : State) (c : Controller) (b : Byte) : State :=
  if ron (c.reg .port5) then
    let c' := (c.setReg .port4 b).setReg .port5 (setRxrd (c.reg .port5))
    if intEnable (c'.reg .port5) then (s.put c').nmiRequest c' else s.put c'
  else s.diag c.config.id .dg4

/-- `Deliver(P, b)`: the event, then Receive with P as the current instance (R98). A reference to no
instance is refused (log 11). -/
def State.deliver (s : State) (p : InstanceId) (b : Byte) : StepResult :=
  match s.find p with
  | some d => .next ((s.emit (.peerDelivery s.self p b)).receive d b)
  | none => .refused .danglingLink

/-- CompleteTransfer of controller `c` (R97): the sender goes idle first (D31, log 30), then the byte goes
to the peer the reference names now; with no peer it is discarded. -/
def State.completeTransfer (s : State) (c : Controller) : StepResult :=
  match c.peer with
  | some p => (s.put c.endTransfer).deliver p c.serial.sendBuffer
  | none => .next (s.put c.endTransfer)

/-- One advance of the current instance by `n` clocks, `n` any count (R95, R96). -/
def State.advanceBy (s : State) (n : Nat) : StepResult :=
  s.onSelf fun c =>
    if c.serial.active then
      if (c.countDown n).serial.clocksRemaining ≤ 0 then s.completeTransfer (c.countDown n)
      else .next (s.put (c.countDown n))
    else .next s

/-! ### Reset -/

/-- A controller after RESET: every register at its reset value, the serial state cleared, the link kept
(R129; D21, log 26). -/
def Controller.afterReset (c : Controller) (resetValue : RegBank) : Controller :=
  { c with
    bank := resetValue
    serial :=
      { active := false
        clocksRemaining := 0
        baudRate := baudRateOf (baudSelector resetValue.port5)
        sendBuffer := 0x00 } }

/-! ### The issue port -/

/-- The oldest pending issue, taken: its word, and the state with its target and its draw in place
(R9, R46; log 5). -/
def State.fetch (s : State) : Option (CommandWord × State) :=
  match s.pending with
  | [] => none
  | c :: rest => some (c.word, { s with pending := rest, self := c.target, draw := c.draw })

/-- The instance `withFetchWord` addresses: the first of `INSTANCES` (log 13). -/
def State.firstId (s : State) : InstanceId :=
  match s.controllers with
  | [] => 0
  | c :: _ => c.config.id

/-- The state with one more command issued, to be run next. -/
def State.issue (s : State) (c : Issue) : State := { s with pending := c :: s.pending }

end Sys2Proof.Machine
end

