-- ==== Sys2Proof/Machine/PortRead.lean ====
section
/-! DEFINITION. The IN family (40_port_read.md). Every IN returns one byte; only IN 0x04 writes a register
(R62). A collaborator's byte is the draw of the step (R62, D1; log 6). -/

namespace Sys2Proof.Machine

/-- The sentinel read: 0xFF, with the optional diagnostic DG1 (R69, R76). -/
def State.readSentinel (s : State) : State := (s.diag s.self .dg1).answerByte 0xFF

/-- The input port A register (R74). -/
def State.readPortA (s : State) : StepResult := s.onSelf fun _ => .next (s.readDevice .getPortA)

/-- The input port B register merged with Port3F (R75). -/
def State.readPortB (s : State) : StepResult :=
  s.onSelf fun c => .next ((s.drawn .getPortB).answerByte (portBByte (c.reg .port3F) s.draw))

/-- IN 0x00: the pad and region byte (R63). -/
def execInP0 (s : State) : StepResult :=
  s.onSelf fun c => .next ((s.drawn .getMiscPort).answerByte (miscByte c.config.region s.draw))

/-- IN 0x01: the pad byte, merged with the lines a linked peer drives (R64). -/
def execInP1 (s : State) : StepResult :=
  s.onSelf fun c =>
    match c.peer with
    | none => .next ((s.drawn .port1PadByte).answerByte (padMask s.draw))
    | some p =>
      match s.find p with
      | some d => .next ((s.drawn .port1PadByte).answerByte (padMerge d.bank s.draw))
      | none => .refused .danglingLink

/-- IN 0x02 (R65). -/
def execInP2 (s : State) : StepResult := s.onSelf fun c => .next (s.answerByte (c.reg .port2))

/-- IN 0x03 (R66). -/
def execInP3 (s : State) : StepResult := s.onSelf fun c => .next (s.answerByte (c.reg .port3))

/-- IN 0x04: Port4, and RXRD is cleared (R67). -/
def execInP4 (s : State) : StepResult :=
  s.onSelf fun c =>
    .next ((s.put (c.setReg .port5 (clearRxrd (c.reg .port5)))).answerByte (c.reg .port4))

/-- IN 0x05 (R68). -/
def execInP5 (s : State) : StepResult := s.onSelf fun c => .next (s.answerByte (c.reg .port5))

/-- IN 0x06..0x3F (R69). -/
def execInNullLo (_port : Byte) (s : State) : StepResult := s.onSelf fun _ => .next s.readSentinel

/-- IN of an even port in 0x40..0x7E (R70). -/
def execInVcnt (_port : Byte) (s : State) : StepResult :=
  s.onSelf fun _ => .next (s.readDevice .getVCounter)

/-- IN of an odd port in 0x41..0x7F (R71). -/
def execInHcnt (_port : Byte) (s : State) : StepResult :=
  s.onSelf fun _ => .next (s.readDevice .getHCounter)

/-- IN of an even port in 0x80..0xBE (R72). -/
def execInVdata (_port : Byte) (s : State) : StepResult :=
  s.onSelf fun _ => .next (s.readDevice .getDataPort)

/-- IN of an odd port in 0x81..0xBF (R73). -/
def execInVstat (_port : Byte) (s : State) : StepResult :=
  s.onSelf fun _ => .next (s.readDevice .getStatusFlags)

/-- IN 0xC0 (R74). -/
def execInC0 (s : State) : StepResult := s.readPortA

/-- IN 0xDC (R74). -/
def execInDC (s : State) : StepResult := s.readPortA

/-- IN 0xC1 (R75). -/
def execInC1 (s : State) : StepResult := s.readPortB

/-- IN 0xDD (R75). -/
def execInDD (s : State) : StepResult := s.readPortB

/-- IN of the other ports of 0xC0..0xFF (R76). -/
def execInNullHi (_port : Byte) (s : State) : StepResult := s.onSelf fun _ => .next s.readSentinel

end Sys2Proof.Machine
end

