-- ==== Sys2Proof/Machine/PortWrite.lean ====
section
/-! DEFINITION. The OUT family (41_port_write.md). An OUT returns nothing and changes no link reference
(R77). -/

namespace Sys2Proof.Machine

/-- An OUT that only stores the value in a register. -/
def State.storeReg (s : State) (r : Reg) (value : Byte) : StepResult :=
  s.onSelf fun c => .next (s.put (c.setReg r value))

/-- An OUT that only forwards the value to a collaborator (R77). -/
def State.forward (s : State) (what : DeviceCall) : StepResult := s.onSelf fun _ => .next (s.call what)

/-- The controller with a byte stored for sending (R81). -/
def Controller.captureByte (c : Controller) (value : Byte) : Controller :=
  { c.setReg .port3 value with serial := { c.serial with sendBuffer := value } }

/-- The controller after an OUT 0x05 (R83; D15, log 21). -/
def Controller.writeSerialControl (c : Controller) (value : Byte) : Controller :=
  { c.setReg .port5 (writeControl (c.reg .port5) value) with
    serial := { c.serial with baudRate := baudRateOf (baudSelector value) } }

/-- The controller after an odd write in 0x07..0x3F (R86; D11 and D12, log 17 and 18). -/
def Controller.writeIoctl (c : Controller) (mask value : Byte) : Controller :=
  (c.setReg .port3FHC (value &&& mask)).setReg .port3F (ioctlByte c.config.region value)

/-- OUT 0x00 (R78). -/
def execOutP0 (value : Byte) (s : State) : StepResult := s.storeReg .port0 value

/-- OUT 0x01 (R79). -/
def execOutP1 (value : Byte) (s : State) : StepResult := s.storeReg .port1 value

/-- OUT 0x02: the direction byte, and the NMI edge on bit 6 (R80; D9, log 16). -/
def execOutP2 (value : Byte) (s : State) : StepResult :=
  s.onSelf fun c =>
    let c' := c.setReg .port2 value
    if nmiEdge (c.reg .port2) value then .next ((s.put c').nmiRequest c') else .next (s.put c')

/-- OUT 0x03: suppressed while a transfer is active; else the byte is stored and captured, and a transfer
starts when TON or RON is set (R81). -/
def execOutP3 (value : Byte) (s : State) : StepResult :=
  s.onSelf fun c =>
    if c.serial.active then .next (s.diag s.self .dg3)
    else if ton (c.reg .port5) || ron (c.reg .port5) then
      .next (s.put (c.captureByte value).beginTransfer)
    else .next (s.put (c.captureByte value))

/-- OUT 0x04: no effect (R82). -/
def execOutP4 (_value : Byte) (s : State) : StepResult := s.onSelf fun _ => .next s

/-- OUT 0x05: the control bits and the rate (R83). -/
def execOutP5 (value : Byte) (s : State) : StepResult :=
  s.onSelf fun c => .next (s.put (c.writeSerialControl value))

/-- OUT 0x06: stored and forwarded (R84; D10, log 32). -/
def execOutP6 (value : Byte) (s : State) : StepResult :=
  s.onSelf fun c => .next ((s.put (c.setReg .port6 value)).call (.writeStereoRegister value))

/-- OUT of an even port in 0x08..0x3E (R85). -/
def execOutMemctl (_port value : Byte) (s : State) : StepResult :=
  s.forward (.setMemoryControlRegister value)

/-- OUT of an odd port in 0x07..0x3F: the H-counter latch on a rising trigger bit, then the two shadow
registers (R86). -/
def execOutIoctl (_port value : Byte) (s : State) : StepResult :=
  s.onSelf fun c =>
    let c' := c.writeIoctl s.config.hcTriggerMask value
    if hcRise s.config.hcTriggerMask (c.reg .port3FHC) value = 0 then .next (s.put c')
    else .next ((s.call .latchHCounter).put c')

/-- OUT 0x40..0x7F (R87). -/
def execOutPsg (_port value : Byte) (s : State) : StepResult := s.forward (.writeToneRegister value)

/-- OUT of an even port in 0x80..0xBE (R88). -/
def execOutVdata (_port value : Byte) (s : State) : StepResult := s.forward (.writeData value)

/-- OUT of an odd port in 0x81..0xBF (R89). -/
def execOutVctl (_port value : Byte) (s : State) : StepResult := s.forward (.writeControl value)

/-- OUT 0xC0..0xFF: no effect, with the optional diagnostic DG2 (R90). -/
def execOutNullHi (_port _value : Byte) (s : State) : StepResult :=
  s.onSelf fun _ => .next (s.diag s.self .dg2)

end Sys2Proof.Machine
end

