-- ==== Sys2Proof/Machine/SideBand.lean ====
section
/-! DEFINITION. The side-band commands: the serial link (42_serial.md), link management (43_link.md),
persistence (44_persistence.md), RESET (70_reset_and_hazards.md) and the reserved codes (R58). -/

namespace Sys2Proof.Machine

/-- ADVANCE `n` (R95). -/
def execAdvance (n : BitVec 16) (s : State) : StepResult := s.advanceBy (elapsed n)

/-- RECEIVE `b`: the receive handler of the addressed instance; no `PeerDelivery` is recorded (R100). -/
def execReceive (b : Byte) (s : State) : StepResult := s.onSelf fun c => .next (s.receive c b)

/-- RESET (R129). -/
def execReset (s : State) : StepResult :=
  s.onSelf fun c => .next (s.put (c.afterReset s.config.resetValue))

/-- LINK `other`: a self-link is turned away with a diagnostic, an unknown peer is refused (R104). A LINK that
is addressed outside `INSTANCES` is refused as `unknownInstance` whatever it names, an order of the two causes
of R115 that is the model's (DESIGN CHOICE; log 10). -/
def execLink (other : InstanceId) (s : State) : StepResult :=
  s.onSelf fun c =>
    if other = s.self then .next (s.diag s.self .dg5)
    else if other ∈ s.ids then .next (s.put { c with peer := some other })
    else .refused .unknownPeer

/-- UNLINK (R105). -/
def execUnlink (s : State) : StepResult := s.onSelf fun c => .next (s.put { c with peer := none })

/-- SAVE: Port3F, then Port3F_HC, raw (R109, R110). -/
def execSave (s : State) : StepResult :=
  s.onSelf fun c => .next (s.answer (.pair s.self (c.reg .port3F) (c.reg .port3FHC)))

/-- LOAD `b0, b1`: the two bytes stored raw; refused while a transfer is active (R111; D22, log 27). -/
def execLoad (b0 b1 : Byte) (s : State) : StepResult :=
  s.onSelf fun c =>
    if c.serial.active then .refused .loadDuringTransfer
    else .next (s.put ((c.setReg .port3F b0).setReg .port3FHC b1))

/-- BAUD: the rate only; Port5 is not written (R101; D14, log 20). -/
def execBaud (selector : BitVec 2) (s : State) : StepResult :=
  s.onSelf fun c =>
    .next (s.put { c with serial := { c.serial with baudRate := baudRateOf selector } })

/-- Command code 0x9 spells no command (R58, R115; log 10). -/
def execReserved9 (_rest : BitVec 16) (_s : State) : StepResult := .refused .reservedCommand

/-- Command codes 0xA and 0xB spell no command (R58, R115; log 10). -/
def execReservedAB (_rest : BitVec 17) (_s : State) : StepResult := .refused .reservedCommand

/-- Command codes 0xC to 0xF spell no command (R58, R115; log 10). -/
def execReservedCF (_rest : BitVec 18) (_s : State) : StepResult := .refused .reservedCommand

end Sys2Proof.Machine
end

