-- ==== Sys2Proof/Machine/Dispatch.lean ====
section
/-! DEFINITION. The dispatch of a command to its meaning: one arm per row of spec/opcode_table.json. -/

namespace Sys2Proof.Machine

/-- The effect of a command on the addressed instance (R53, R55, R56, R57). -/
def exec (i : Instr) (s : State) : Host.Outcome State Fault Refusal :=
  match i with
  | .inP0 => Sys2Proof.Machine.execInP0 s
  | .inP1 => Sys2Proof.Machine.execInP1 s
  | .inP2 => Sys2Proof.Machine.execInP2 s
  | .inP3 => Sys2Proof.Machine.execInP3 s
  | .inP4 => Sys2Proof.Machine.execInP4 s
  | .inP5 => Sys2Proof.Machine.execInP5 s
  | .inNullLo port => Sys2Proof.Machine.execInNullLo port s
  | .inVcnt port => Sys2Proof.Machine.execInVcnt port s
  | .inHcnt port => Sys2Proof.Machine.execInHcnt port s
  | .inVdata port => Sys2Proof.Machine.execInVdata port s
  | .inVstat port => Sys2Proof.Machine.execInVstat port s
  | .inC0 => Sys2Proof.Machine.execInC0 s
  | .inDC => Sys2Proof.Machine.execInDC s
  | .inC1 => Sys2Proof.Machine.execInC1 s
  | .inDD => Sys2Proof.Machine.execInDD s
  | .inNullHi port => Sys2Proof.Machine.execInNullHi port s
  | .outP0 value => Sys2Proof.Machine.execOutP0 value s
  | .outP1 value => Sys2Proof.Machine.execOutP1 value s
  | .outP2 value => Sys2Proof.Machine.execOutP2 value s
  | .outP3 value => Sys2Proof.Machine.execOutP3 value s
  | .outP4 value => Sys2Proof.Machine.execOutP4 value s
  | .outP5 value => Sys2Proof.Machine.execOutP5 value s
  | .outP6 value => Sys2Proof.Machine.execOutP6 value s
  | .outMemctl port value => Sys2Proof.Machine.execOutMemctl port value s
  | .outIoctl port value => Sys2Proof.Machine.execOutIoctl port value s
  | .outPsg port value => Sys2Proof.Machine.execOutPsg port value s
  | .outVdata port value => Sys2Proof.Machine.execOutVdata port value s
  | .outVctl port value => Sys2Proof.Machine.execOutVctl port value s
  | .outNullHi port value => Sys2Proof.Machine.execOutNullHi port value s
  | .advance n => Sys2Proof.Machine.execAdvance n s
  | .receive b => Sys2Proof.Machine.execReceive b s
  | .reset => Sys2Proof.Machine.execReset s
  | .link other => Sys2Proof.Machine.execLink other s
  | .unlink => Sys2Proof.Machine.execUnlink s
  | .save => Sys2Proof.Machine.execSave s
  | .load b0 b1 => Sys2Proof.Machine.execLoad b0 b1 s
  | .baud selector => Sys2Proof.Machine.execBaud selector s
  | .reserved9 rest => Sys2Proof.Machine.execReserved9 rest s
  | .reservedAB rest => Sys2Proof.Machine.execReservedAB rest s
  | .reservedCF rest => Sys2Proof.Machine.execReservedCF rest s

end Sys2Proof.Machine
end

