-- ==== Sys2Proof/Machine/Step.lean ====
section
/-! DEFINITION. One step: the oldest pending issue is taken and its command run on the instance it names. -/

namespace Sys2Proof.Machine

/-- One step of the system (R9, R46, R47). With nothing issued, nothing moves: "the controller has no
internal scheduling" (R21; log 5). -/
def step (s : State) : Host.Outcome State Fault Refusal :=
  match s.fetch with
  | none => .next s
  | some (w, s') => exec (decode w) s'

/-- The state with a table word of `nbits` bits issued to the first instance, to be run by the very next
step, with a draw nothing constrains (log 6, 13). A number that is no command word issues nothing (log 12). -/
def State.withFetchWord (s : State) (nbits w : Nat) : State :=
  match commandWordOf nbits w with
  | .ok c => s.issue { target := s.firstId, word := c, draw := Config.freeDraw s.events.length }
  | .error _ => s

end Sys2Proof.Machine
end

