-- ==== Sys2Proof/Machine/Pseudo.lean ====
section
/-! DEFINITION. The pseudo-instructions of R60 as the commands they expand to, and running a list of commands
of one instance in order (R46). The text of the assembler syntax is notation (D4, log 36). -/

namespace Sys2Proof.Machine

/-- `ADVANCE n` with n > 65535: n div 65535 lines `ADVANCE 65535`, then one of the rest if that is not 0. -/
def advanceLines (n : Nat) : List Instr :=
  List.replicate (n / 65535) (.advance 65535) ++
    if n % 65535 = 0 then [] else [.advance (BitVec.ofNat 16 (n % 65535))]

/-- `LINKPAIR X, Y`: the commands of a two-way cable, each with the instance it is issued to. -/
def linkPairLines (x y : InstanceId) : List (InstanceId × Instr) := [(x, .link y), (y, .link x)]

/-- `SEND v`. -/
def sendLine (v : Byte) : Instr := .outP3 v

/-- `SERCTL v`. -/
def serctlLine (v : Byte) : Instr := .outP5 v

/-- A command followed by more on the state it leaves; a refusal ends the run (R115). -/
def andThen (r : StepResult) (k : State → StepResult) : StepResult :=
  match r with
  | .next s => k s
  | .fault f => .fault f
  | .refused x => .refused x

/-- The commands of the current instance, one after another (R46). -/
def execAll : List Instr → State → StepResult
  | [], s => .next s
  | i :: is, s => andThen (exec i s) (execAll is)

end Sys2Proof.Machine
end

