-- ==== Sys2Proof/Safety.lean ====
section
/-! DEFINITION. The terms claims are stated in: the invariant of the system, the whole effect of a command
on the addressed controller (its frame included), the two-sided view of a run that no rule can tell apart,
and the cases in which a command is refused. -/

namespace Sys2Proof.Machine

/-! ### The invariant -/

/-- R36, 1 to 3: `active` is TXFL; while active, Port3 holds the byte being sent and the count is positive.
(R36.4 holds by the type `BaudRate`.) -/
abbrev Controller.serialOk (c : Controller) : Prop :=
  c.serial.active = txfl c.bank.port5 ∧
    (c.serial.active = true → c.bank.port3 = c.serial.sendBuffer ∧ 0 < c.serial.clocksRemaining)

/-- The link reference is never the controller's own identity (R37) and names an existing instance (R107). -/
abbrev State.linkOk (s : State) : Prop :=
  ∀ c ∈ s.controllers, c.peer ≠ some c.config.id ∧ ∀ p ∈ c.peer, p ∈ s.ids

/-- `INSTANCES` in its canonical form: strictly rising identifiers (log 35). -/
abbrev State.idsRising (s : State) : Prop := s.ids.Pairwise fun a b => a.toNat < b.toNat

/-- What every step keeps: the constraints on the parameters (R11, R22, D11), the form of `INSTANCES`, and
the invariants of R36, R37 and R107. -/
abbrev State.Inv (s : State) : Prop :=
  s.config.wf ∧ s.idsRising ∧ (∀ c ∈ s.controllers, c.serialOk) ∧ s.linkOk

/-! ### The effect of a command -/

/-- What no command writes (R19): the parameters, with every controller's own configuration; and the
inputs of the steps (R9, R46). -/
structure InputsKept (s t : State) : Prop where
  config : t.config = s.config
  configs : t.controllers.map (·.config) = s.controllers.map (·.config)
  pending : t.pending = s.pending
  self : t.self = s.self
  draw : t.draw = s.draw

/-- `t` is `s` after a command that makes the addressed controller `c'`, returns `rs` and makes the output
events `es`; every other controller and everything else is as before. Only the advisory diagnostics are left
open (R114). -/
structure Ran (s t : State) (c' : Controller) (rs : List CommandResult) (es : List Event) : Prop where
  own : t.find s.self = some c'
  others : ∀ j, j ≠ s.self → t.find j = s.find j
  kept : InputsKept s t
  results : t.results = s.results ++ rs
  events : t.events = s.events ++ es

/-- As `Ran`, for a command that also makes another controller `p` become `d'`. -/
structure RanBoth (s t : State) (c' : Controller) (p : InstanceId) (d' : Controller)
    (rs : List CommandResult) (es : List Event) : Prop where
  own : t.find s.self = some c'
  peer : t.find p = some d'
  others : ∀ j, j ≠ s.self → j ≠ p → t.find j = s.find j
  kept : InputsKept s t
  results : t.results = s.results ++ rs
  events : t.events = s.events ++ es

/-- The event of a due NMI request: none where the controller has no interrupt path (R117). -/
def nmiEvents (c : Controller) : List Event :=
  if c.config.nmiPath then [.nmiRequest c.config.id] else []

/-- An NMI request event. -/
def Event.isNmi : Event → Bool
  | .nmiRequest _ => true
  | .call _ _ => false
  | .read _ _ _ => false
  | .peerDelivery _ _ _ => false

/-- The link reference of the addressed controller, where it has one, names an existing instance (R107). -/
def PeerPresent (s : State) (c : Controller) : Prop :=
  ∀ p, c.peer = some p → ∃ d, s.find p = some d

end Sys2Proof.Machine

namespace Sys2Proof

/-! ### Families of commands -/

/-- The IN family (40_port_read.md). -/
def Instr.isIn : Instr → Bool
  | .inP0 | .inP1 | .inP2 | .inP3 | .inP4 | .inP5 => true
  | .inNullLo _ | .inVcnt _ | .inHcnt _ | .inVdata _ | .inVstat _ => true
  | .inC0 | .inDC | .inC1 | .inDD | .inNullHi _ => true
  | .outP0 _ | .outP1 _ | .outP2 _ | .outP3 _ | .outP4 _ | .outP5 _ | .outP6 _ => false
  | .outMemctl _ _ | .outIoctl _ _ | .outPsg _ _ | .outVdata _ _ | .outVctl _ _ | .outNullHi _ _ => false
  | .advance _ | .receive _ | .reset | .link _ | .unlink | .save | .load _ _ | .baud _ => false
  | .reserved9 _ | .reservedAB _ | .reservedCF _ => false

/-- The OUT family (41_port_write.md). -/
def Instr.isOut : Instr → Bool
  | .inP0 | .inP1 | .inP2 | .inP3 | .inP4 | .inP5 => false
  | .inNullLo _ | .inVcnt _ | .inHcnt _ | .inVdata _ | .inVstat _ => false
  | .inC0 | .inDC | .inC1 | .inDD | .inNullHi _ => false
  | .outP0 _ | .outP1 _ | .outP2 _ | .outP3 _ | .outP4 _ | .outP5 _ | .outP6 _ => true
  | .outMemctl _ _ | .outIoctl _ _ | .outPsg _ _ | .outVdata _ _ | .outVctl _ _ | .outNullHi _ _ => true
  | .advance _ | .receive _ | .reset | .link _ | .unlink | .save | .load _ _ | .baud _ => false
  | .reserved9 _ | .reservedAB _ | .reservedCF _ => false

/-- The operands of an OUT: the port address it is issued to and the value written (R77, R56). A row of one
address has no port operand: its address is the row's. -/
def Instr.outOperands : Instr → Option (Byte × Byte)
  | .outP0 v => some (0x00, v)
  | .outP1 v => some (0x01, v)
  | .outP2 v => some (0x02, v)
  | .outP3 v => some (0x03, v)
  | .outP4 v => some (0x04, v)
  | .outP5 v => some (0x05, v)
  | .outP6 v => some (0x06, v)
  | .outMemctl a v | .outIoctl a v | .outPsg a v | .outVdata a v | .outVctl a v | .outNullHi a v => some (a, v)
  | .inP0 | .inP1 | .inP2 | .inP3 | .inP4 | .inP5 => none
  | .inNullLo _ | .inVcnt _ | .inHcnt _ | .inVdata _ | .inVstat _ => none
  | .inC0 | .inDC | .inC1 | .inDD | .inNullHi _ => none
  | .advance _ | .receive _ | .reset | .link _ | .unlink | .save | .load _ _ | .baud _ => none
  | .reserved9 _ | .reservedAB _ | .reservedCF _ => none

/-- A reserved row (R58). -/
def Instr.isReserved : Instr → Bool
  | .inP0 | .inP1 | .inP2 | .inP3 | .inP4 | .inP5 => false
  | .inNullLo _ | .inVcnt _ | .inHcnt _ | .inVdata _ | .inVstat _ => false
  | .inC0 | .inDC | .inC1 | .inDD | .inNullHi _ => false
  | .outP0 _ | .outP1 _ | .outP2 _ | .outP3 _ | .outP4 _ | .outP5 _ | .outP6 _ => false
  | .outMemctl _ _ | .outIoctl _ _ | .outPsg _ _ | .outVdata _ _ | .outVctl _ _ | .outNullHi _ _ => false
  | .advance _ | .receive _ | .reset | .link _ | .unlink | .save | .load _ _ | .baud _ => false
  | .reserved9 _ | .reservedAB _ | .reservedCF _ => true

end Sys2Proof

namespace Sys2Proof.Machine

/-! ### What no rule can tell apart -/

/-- The answer with a function applied to its next state. -/
def mapNext (f : State → State) (r : StepResult) : StepResult :=
  match r with
  | .next s => .next (f s)
  | .fault x => .fault x
  | .refused x => .refused x

/-- A controller without the count of an idle countdown, which "is read by no rule" (R35; D17, log 23). -/
def Controller.forgetIdleCount (c : Controller) : Controller :=
  if c.serial.active then c else { c with serial := { c.serial with clocksRemaining := 0 } }

/-- A state without the idle counts and without the advisory diagnostics (R114). -/
def State.forgetIdleCounts (s : State) : State :=
  { s with controllers := s.controllers.map Controller.forgetIdleCount, diagnostics := [] }

/-- A controller without the registers no command reads, Port0 and Port6 (R20, R38). -/
def Controller.forgetUnread (c : Controller) : Controller :=
  { c with bank := { c.bank with port0 := 0, port6 := 0 } }

/-- A state without the registers no command reads (R38). -/
def State.forgetUnread (s : State) : State :=
  { s with controllers := s.controllers.map Controller.forgetUnread }

/-! ### Who may write what -/

/-- The table of R20, column "Written by", for the addressed controller's own registers. -/
def mayWrite : Instr → Reg → Bool
  | .inP0, _ | .inP1, _ | .inP2, _ | .inP3, _ | .inP5, _ => false
  | .inP4, r => r == .port5
  | .inNullLo _, _ | .inVcnt _, _ | .inHcnt _, _ | .inVdata _, _ | .inVstat _, _ => false
  | .inC0, _ | .inDC, _ | .inC1, _ | .inDD, _ | .inNullHi _, _ => false
  | .outP0 _, r => r == .port0
  | .outP1 _, r => r == .port1
  | .outP2 _, r => r == .port2
  | .outP3 _, r => r == .port3 || r == .port5
  | .outP4 _, _ => false
  | .outP5 _, r => r == .port5
  | .outP6 _, r => r == .port6
  | .outIoctl _ _, r => r == .port3F || r == .port3FHC
  | .outMemctl _ _, _ | .outPsg _ _, _ | .outVdata _ _, _ | .outVctl _ _, _ | .outNullHi _ _, _ => false
  | .advance _, r => r == .port5
  | .receive _, r => r == .port4 || r == .port5
  | .reset, _ => true
  | .load _ _, r => r == .port3F || r == .port3FHC
  | .link _, _ | .unlink, _ | .save, _ | .baud _, _ => false
  | .reserved9 _, _ | .reservedAB _, _ | .reservedCF _, _ => false

/-- The addressed controller completes a transfer in an advance of `n` clocks and hands its byte to `j`
(R95, R97, R98). -/
def DeliversTo (s : State) (n : Nat) (j : InstanceId) (b : Byte) : Prop :=
  ∃ c, s.find s.self = some c ∧ c.serial.active = true ∧ c.serial.clocksRemaining ≤ (n : Int) ∧
    c.peer = some j ∧ c.serial.sendBuffer = b

/-- An NMI of controller `d`, with identifier `j`, falls due in a command: the two sources of R116, the
Port2 edge and a Receive with RON and INT set, directly or through a delivery. -/
def NmiDue (i : Instr) (s : State) (j : InstanceId) (d : Controller) : Prop :=
  (∃ v, i = .outP2 v ∧ j = s.self ∧
    v.getLsbD 7 = false ∧ d.bank.port2.getLsbD 6 = true ∧ v.getLsbD 6 = false) ∨
  (∃ b, i = .receive b ∧ j = s.self ∧
    d.bank.port5.getLsbD 5 = true ∧ d.bank.port5.getLsbD 3 = true) ∨
  (∃ n b, i = .advance n ∧ DeliversTo s n.toNat j b ∧
    d.bank.port5.getLsbD 5 = true ∧ d.bank.port5.getLsbD 3 = true)

/-! ### Refusals -/

/-- When the spec has a command refused, and how (R115). Where two causes hold, a reserved code comes before an
unknown instance and that before an unknown peer (log 10). -/
inductive RefusedBySpec (i : Instr) (s : State) : Refusal → Prop where
  | reservedCommand : i.isReserved = true → RefusedBySpec i s .reservedCommand
  | unknownInstance : i.isReserved = false → s.self ∉ s.ids → RefusedBySpec i s .unknownInstance
  | unknownPeer (other : InstanceId) :
      i = .link other → s.self ∈ s.ids → other ∉ s.ids → RefusedBySpec i s .unknownPeer
  | loadDuringTransfer (b0 b1 : Byte) (c : Controller) :
      i = .load b0 b1 → s.find s.self = some c → c.serial.active = true →
        RefusedBySpec i s .loadDuringTransfer

end Sys2Proof.Machine
end

