-- ==== Sys2Proof/WellFormed.lean ====
section
/-! DEFINITION. When a command's port address is one its row takes (R55, R56, third column). Every other
operand admits every value of its width. -/

namespace Sys2Proof

/-- The operand check of a command: the port address lies among the addresses its row takes after the rows
above it (R55, R56). -/
def Instr.wf : Instr → Bool
  | .inP0 | .inP1 | .inP2 | .inP3 | .inP4 | .inP5 => true
  | .inNullLo a => portRange a == 0 && decide (6 ≤ a.toNat)
  | .inVcnt a => portRange a == 1 && !portOdd a
  | .inHcnt a => portRange a == 1 && portOdd a
  | .inVdata a => portRange a == 2 && !portOdd a
  | .inVstat a => portRange a == 2 && portOdd a
  | .inC0 | .inDC | .inC1 | .inDD => true
  | .inNullHi a => portRange a == 3 && !isInputPort a
  | .outP0 _ | .outP1 _ | .outP2 _ | .outP3 _ | .outP4 _ | .outP5 _ | .outP6 _ => true
  | .outMemctl a _ => portRange a == 0 && !portOdd a && decide (8 ≤ a.toNat)
  | .outIoctl a _ => portRange a == 0 && portOdd a && decide (7 ≤ a.toNat)
  | .outPsg a _ => portRange a == 1
  | .outVdata a _ => portRange a == 2 && !portOdd a
  | .outVctl a _ => portRange a == 2 && portOdd a
  | .outNullHi a _ => portRange a == 3
  | .advance _ | .receive _ | .reset | .link _ | .unlink | .save | .load _ _ | .baud _ => true
  | .reserved9 _ | .reservedAB _ | .reservedCF _ => true

end Sys2Proof
end

