-- ==== Sys2Proof/Certificates/Slice0/Obligations.lean ====
section
/-! DEFINITION. The statements for the provers. `Ran s t c' rs es` (Sys2Proof/Safety.lean) is the whole effect
of a command, its frame included: the addressed controller becomes `c'`, a record update of what it was, so
every register, serial field and link not named is unchanged; every other controller, the parameters and the
inputs are unchanged; the results grow by `rs` and the events by `es`. Nothing is said of the advisory
diagnostics (R114). The block has no memory (R40). "log n" is notes/assumptions/n.md. -/

open Sys2Proof Sys2Proof.Machine

/-! ### Encoding -/

/-- Every well-formed command is what its encoding decodes to, every operand at every value. The word's
packing is the spec's own decision D2 (log 14). -/
def Obligations.EveryCommandDecodesFromItsEncoding : Prop :=
  ∀ i : Instr, i.wf = true → decode (encode i) = i

/-- Every word decodes to a well-formed command, whose encoding is the word with the ignored bits cleared
(decision D2, log 14). -/
def Obligations.EveryWordIsItsCommandUpToIgnoredBits : Prop :=
  ∀ w : CommandWord,
    (decode w).wf = true ∧ encode (decode w) = w &&& ~~~(ignoredBits (decode w))

/-- The bits a command ignores may hold any value (R54's last paragraph; decisions D2, D3, log 14). -/
def Obligations.IgnoredBitsDoNotChangeTheCommand : Prop :=
  ∀ w x : CommandWord, decode (w ^^^ (x &&& ignoredBits (decode w))) = decode w

/-- The command a word decodes to is that of the first row of spec/opcode_table.json whose mask and match fit
(30_encoding.md, opening; decision D2, log 14). -/
def Obligations.EveryWordTakesTheFirstTableRow : Prop :=
  ∀ w : CommandWord, firstRow w = some (decode w).row

/-- The addresses each IN row takes after the rows above, of all 256 (R55; the word is packed by decision D2,
log 14). -/
def Obligations.InPortsSelectTheirRows : Prop :=
  ∀ a d : Byte,
    (decode (packWord 0x0 a d) = .inP0 ↔ a = 0x00) ∧
    (decode (packWord 0x0 a d) = .inP1 ↔ a = 0x01) ∧
    (decode (packWord 0x0 a d) = .inP2 ↔ a = 0x02) ∧
    (decode (packWord 0x0 a d) = .inP3 ↔ a = 0x03) ∧
    (decode (packWord 0x0 a d) = .inP4 ↔ a = 0x04) ∧
    (decode (packWord 0x0 a d) = .inP5 ↔ a = 0x05) ∧
    (decode (packWord 0x0 a d) = .inNullLo a ↔ 0x06 ≤ a.toNat ∧ a.toNat ≤ 0x3F) ∧
    (decode (packWord 0x0 a d) = .inVcnt a ↔ 0x40 ≤ a.toNat ∧ a.toNat ≤ 0x7F ∧ a.toNat % 2 = 0) ∧
    (decode (packWord 0x0 a d) = .inHcnt a ↔ 0x40 ≤ a.toNat ∧ a.toNat ≤ 0x7F ∧ a.toNat % 2 = 1) ∧
    (decode (packWord 0x0 a d) = .inVdata a ↔ 0x80 ≤ a.toNat ∧ a.toNat ≤ 0xBF ∧ a.toNat % 2 = 0) ∧
    (decode (packWord 0x0 a d) = .inVstat a ↔ 0x80 ≤ a.toNat ∧ a.toNat ≤ 0xBF ∧ a.toNat % 2 = 1) ∧
    (decode (packWord 0x0 a d) = .inC0 ↔ a = 0xC0) ∧
    (decode (packWord 0x0 a d) = .inDC ↔ a = 0xDC) ∧
    (decode (packWord 0x0 a d) = .inC1 ↔ a = 0xC1) ∧
    (decode (packWord 0x0 a d) = .inDD ↔ a = 0xDD) ∧
    (decode (packWord 0x0 a d) = .inNullHi a ↔
      0xC0 ≤ a.toNat ∧ a ≠ 0xC0 ∧ a ≠ 0xC1 ∧ a ≠ 0xDC ∧ a ≠ 0xDD)

/-- The addresses each OUT row takes after the rows above, of all 256, with the value `D` (R56; the word is
packed by decision D2, log 14). -/
def Obligations.OutPortsSelectTheirRows : Prop :=
  ∀ a v : Byte,
    (decode (packWord 0x1 a v) = .outP0 v ↔ a = 0x00) ∧
    (decode (packWord 0x1 a v) = .outP1 v ↔ a = 0x01) ∧
    (decode (packWord 0x1 a v) = .outP2 v ↔ a = 0x02) ∧
    (decode (packWord 0x1 a v) = .outP3 v ↔ a = 0x03) ∧
    (decode (packWord 0x1 a v) = .outP4 v ↔ a = 0x04) ∧
    (decode (packWord 0x1 a v) = .outP5 v ↔ a = 0x05) ∧
    (decode (packWord 0x1 a v) = .outP6 v ↔ a = 0x06) ∧
    (decode (packWord 0x1 a v) = .outMemctl a v ↔
      0x08 ≤ a.toNat ∧ a.toNat ≤ 0x3E ∧ a.toNat % 2 = 0) ∧
    (decode (packWord 0x1 a v) = .outIoctl a v ↔
      0x07 ≤ a.toNat ∧ a.toNat ≤ 0x3F ∧ a.toNat % 2 = 1) ∧
    (decode (packWord 0x1 a v) = .outPsg a v ↔ 0x40 ≤ a.toNat ∧ a.toNat ≤ 0x7F) ∧
    (decode (packWord 0x1 a v) = .outVdata a v ↔
      0x80 ≤ a.toNat ∧ a.toNat ≤ 0xBF ∧ a.toNat % 2 = 0) ∧
    (decode (packWord 0x1 a v) = .outVctl a v ↔
      0x80 ≤ a.toNat ∧ a.toNat ≤ 0xBF ∧ a.toNat % 2 = 1) ∧
    (decode (packWord 0x1 a v) = .outNullHi a v ↔ 0xC0 ≤ a.toNat)

/-- Words written out from 95_test_vectors.md L2.1, with one word of each family (decision D2, log 14). -/
def Obligations.SampleWordsDecode : Prop :=
  decode 0x0AB12 = .inVstat 0xAB ∧ decode 0x1C1FF = .outNullHi 0xC1 0xFF ∧
  decode 0x4FFFF = .reset ∧ decode 0x50001 = .unlink ∧ decode 0x5FE01 = .unlink ∧
  decode 0x5FF01 = .link 0x01 ∧ decode 0x6ABCD = .save ∧ decode 0x8FFFE = .baud 2 ∧
  decode 0x2174F = .advance 5967 ∧ decode 0x3007E = .receive 0x7E ∧
  decode 0x7C002 = .load 0xC0 0x02 ∧ decode 0x13FAA = .outIoctl 0x3F 0xAA ∧
  decode 0x90000 = .reserved9 0x0000 ∧ decode 0xF1234 = .reservedCF 0x31234

/-- Exactly the codes 0x9 to 0xF are reserved, and a word with one is refused (R58; decision D3, log 10). -/
def Obligations.ReservedCodesAreRefused : Prop :=
  (∀ w : CommandWord, (decode w).isReserved = true ↔ 9 ≤ (fieldCmd w).toNat) ∧
  (∀ (s : State) (w : CommandWord), 9 ≤ (fieldCmd w).toNat →
    exec (decode w) s = .refused .reservedCommand) ∧
  (∀ (s : State) (r : BitVec 16), exec (.reserved9 r) s = .refused .reservedCommand) ∧
  (∀ (s : State) (r : BitVec 17), exec (.reservedAB r) s = .refused .reservedCommand) ∧
  (∀ (s : State) (r : BitVec 18), exec (.reservedCF r) s = .refused .reservedCommand)

/-! ### The step -/

/-- A step takes the oldest issue and runs the command its word decodes to, on the instance it names and with
its draw (R9, R46, R47); with nothing issued it moves nothing (the model's choice, log 5). -/
def Obligations.StepRunsTheOldestIssue : Prop :=
  (∀ (s : State) (c : Issue) (rest : List Issue), s.pending = c :: rest →
    step s = exec (decode c.word) { s with pending := rest, self := c.target, draw := c.draw }) ∧
  (∀ s : State, s.pending = [] → step s = .next s)

/-- No command writes the parameters, the set of instances or the inputs of the steps (R19; decisions D27,
D25; log 1, 5). -/
def Obligations.CommandsKeepConfigurationAndInputs : Prop :=
  ∀ (i : Instr) (s t : State), exec i s = .next t → InputsKept s t

/-- What a command adds to the observation: one byte for an IN, one pair for a SAVE, no result otherwise; its
output events at the end, with at most one NMI request among them (R10, R44, R119). -/
def Obligations.CommandsAppendTheirObservation : Prop :=
  ∀ (i : Instr) (s t : State), exec i s = .next t →
    ∃ (rs : List CommandResult) (es : List Event),
      t.results = s.results ++ rs ∧ t.events = s.events ++ es ∧
      (es.filter Event.isNmi).length ≤ 1 ∧
      (i.isIn = true → ∃ v, rs = [.byte s.self v]) ∧
      (i = .save → ∃ b0 b1, rs = [.pair s.self b0 b1]) ∧
      (i.isIn = false → i ≠ .save → rs = [])

/-! ### IN -/

/-- IN 0x00 returns the drawn pad byte, with bit 6 set unless the region is `JapanVariant` (R63; the
accessor's name is decision D5, log 32). -/
def Obligations.InP0ReturnsThePadAndRegionByte : Prop :=
  ∀ (s : State) (c : Controller), s.find s.self = some c →
    ∃ (t : State) (v : Byte), exec .inP0 s = .next t ∧
      Ran s t c [.byte s.self v] [.read s.self .getMiscPort s.draw] ∧
      (c.config.region = .japanVariant → v = s.draw) ∧
      (c.config.region ≠ .japanVariant →
        v.getLsbD 6 = true ∧ ∀ k, k ≠ 6 → v.getLsbD k = s.draw.getLsbD k)

/-- IN 0x01 returns the drawn pad byte with bit 7 cleared; with a peer, every line `sigma i` the peer drives
as output gives result bit `i` (R64; decisions D6 and D7, log 15). -/
def Obligations.InP1MergesTheLinesThePeerDrives : Prop :=
  ∀ (s : State) (c : Controller), s.find s.self = some c → PeerPresent s c →
    ∃ (t : State) (v : Byte), exec .inP1 s = .next t ∧
      Ran s t c [.byte s.self v] [.read s.self .port1PadByte s.draw] ∧
      v.getLsbD 7 = false ∧
      (c.peer = none → ∀ k, k < 7 → v.getLsbD k = s.draw.getLsbD k) ∧
      (∀ p d, c.peer = some p → s.find p = some d → ∀ k, k < 7 →
        v.getLsbD k =
          if isOutputBit d.bank (sigma k) then d.bank.port1.getLsbD (sigma k) else s.draw.getLsbD k)

/-- R102: the cross-wiring, that it is its own inverse, and that no line is wired to bit 7 of the result,
which is 0. -/
def Obligations.SigmaSwapsTheLinePairs : Prop :=
  (sigma 0 = 2 ∧ sigma 1 = 3 ∧ sigma 2 = 0 ∧ sigma 3 = 1 ∧ sigma 4 = 5 ∧ sigma 5 = 4 ∧ sigma 6 = 6) ∧
  (∀ i, i < 7 → sigma i < 7 ∧ sigma (sigma i) = i) ∧
  ∀ (p : RegBank) (v : Byte), (padMerge p v).getLsbD 7 = false ∧ (padMask v).getLsbD 7 = false

/-- R103: TON forces line 4 to output, RON forces line 5 to input, every other line follows its direction
bit, 1 for input. -/
def Obligations.OutputDirectionFollowsPort2AndPort5 : Prop :=
  ∀ p : RegBank,
    (p.port5.getLsbD 4 = true → isOutputBit p 4 = true) ∧
    (p.port5.getLsbD 4 = false → isOutputBit p 4 = !p.port2.getLsbD 4) ∧
    (p.port5.getLsbD 5 = true → isOutputBit p 5 = false) ∧
    (p.port5.getLsbD 5 = false → isOutputBit p 5 = !p.port2.getLsbD 5) ∧
    (∀ j, j < 7 → j ≠ 4 → j ≠ 5 → isOutputBit p j = !p.port2.getLsbD j)

/-- R65, R66, R68: IN 0x02, 0x03 and 0x05 return the register raw and change nothing. -/
def Obligations.InP2P3P5ReturnTheRegister : Prop :=
  ∀ (s : State) (c : Controller), s.find s.self = some c →
    (∃ t, exec .inP2 s = .next t ∧ Ran s t c [.byte s.self c.bank.port2] []) ∧
    (∃ t, exec .inP3 s = .next t ∧ Ran s t c [.byte s.self c.bank.port3] []) ∧
    (∃ t, exec .inP5 s = .next t ∧ Ran s t c [.byte s.self c.bank.port5] [])

/-- R67: IN 0x04 returns Port4 and clears RXRD, bit 1 of Port5, alone. -/
def Obligations.InP4ReturnsPort4AndClearsRxrd : Prop :=
  ∀ (s : State) (c : Controller), s.find s.self = some c →
    ∃ (t : State) (p5 : Byte), exec .inP4 s = .next t ∧
      Ran s t { c with bank := { c.bank with port5 := p5 } } [.byte s.self c.bank.port4] [] ∧
      p5.getLsbD 1 = false ∧ ∀ k, k ≠ 1 → p5.getLsbD k = c.bank.port5.getLsbD k

/-- R69, R76: the unmapped ports of 0x06..0x3F and 0xC0..0xFF read 0xFF and change nothing. -/
def Obligations.UnmappedPortsReadAllOnes : Prop :=
  ∀ (s : State) (c : Controller) (a : Byte), s.find s.self = some c →
    (∃ t, exec (.inNullLo a) s = .next t ∧ Ran s t c [.byte s.self 0xFF] []) ∧
    (∃ t, exec (.inNullHi a) s = .next t ∧ Ran s t c [.byte s.self 0xFF] [])

/-- R70 to R73: the video ports return the byte drawn from the video device's accessor. -/
def Obligations.VideoPortsReturnTheDraw : Prop :=
  ∀ (s : State) (c : Controller) (a : Byte), s.find s.self = some c →
    (∃ t, exec (.inVcnt a) s = .next t ∧
      Ran s t c [.byte s.self s.draw] [.read s.self .getVCounter s.draw]) ∧
    (∃ t, exec (.inHcnt a) s = .next t ∧
      Ran s t c [.byte s.self s.draw] [.read s.self .getHCounter s.draw]) ∧
    (∃ t, exec (.inVdata a) s = .next t ∧
      Ran s t c [.byte s.self s.draw] [.read s.self .getDataPort s.draw]) ∧
    (∃ t, exec (.inVstat a) s = .next t ∧
      Ran s t c [.byte s.self s.draw] [.read s.self .getStatusFlags s.draw])

/-- IN 0xC0 and IN 0xDC return the byte drawn from input port A (R74; decision D8, log 32). -/
def Obligations.InC0AndInDCReturnPortA : Prop :=
  ∀ (s : State) (c : Controller), s.find s.self = some c →
    (∃ t, exec .inC0 s = .next t ∧
      Ran s t c [.byte s.self s.draw] [.read s.self .getPortA s.draw]) ∧
    (∃ t, exec .inDC s = .next t ∧
      Ran s t c [.byte s.self s.draw] [.read s.self .getPortA s.draw])

/-- IN 0xC1 and IN 0xDD return bits 5:0 of the byte drawn from input port B and bits 7:6 of Port3F (R75;
decision D8, log 32). -/
def Obligations.InC1AndInDDMergePort3F : Prop :=
  ∀ (s : State) (c : Controller), s.find s.self = some c →
    ∃ v : Byte,
      (∀ k, k < 6 → v.getLsbD k = s.draw.getLsbD k) ∧
      (∀ k, 6 ≤ k → v.getLsbD k = c.bank.port3F.getLsbD k) ∧
      (∃ t, exec .inC1 s = .next t ∧
        Ran s t c [.byte s.self v] [.read s.self .getPortB s.draw]) ∧
      (∃ t, exec .inDD s = .next t ∧
        Ran s t c [.byte s.self v] [.read s.self .getPortB s.draw])

/-- No IN writes anything but IN 0x04, which clears RXRD of the addressed controller and writes nothing else,
and none requests an NMI (R62; decision D1, log 6). -/
def Obligations.ReadsWriteNothingButRxrd : Prop :=
  ∀ (i : Instr) (s t : State), i.isIn = true → exec i s = .next t →
    (i ≠ .inP4 → t.controllers = s.controllers) ∧
    (∀ j, j ≠ s.self → t.find j = s.find j) ∧
    (i = .inP4 → ∃ d, t.find s.self = some d ∧ (d.reg .port5).getLsbD 1 = false) ∧
    (∀ j c d, s.find j = some c → t.find j = some d →
      d.serial = c.serial ∧ d.peer = c.peer ∧
      (∀ r, r ≠ .port5 → d.reg r = c.reg r) ∧
      (∀ k, k ≠ 1 → (d.reg .port5).getLsbD k = (c.reg .port5).getLsbD k)) ∧
    t.events.filter Event.isNmi = s.events.filter Event.isNmi

/-! ### OUT -/

/-- OUT 0x00 stores Port0 (R78; decision D10, log 32). -/
def Obligations.OutP0StoresPort0 : Prop :=
  ∀ (s : State) (c : Controller) (v : Byte), s.find s.self = some c →
    ∃ t, exec (.outP0 v) s = .next t ∧ Ran s t { c with bank := { c.bank with port0 := v } } [] []

/-- OUT 0x01 stores Port1 (R79). -/
def Obligations.OutP1StoresPort1 : Prop :=
  ∀ (s : State) (c : Controller) (v : Byte), s.find s.self = some c →
    ∃ t, exec (.outP1 v) s = .next t ∧ Ran s t { c with bank := { c.bank with port1 := v } } [] []

/-- OUT 0x02 stores Port2; with bit 7 of the value clear and bit 6 going from 1 to 0 it requests an NMI,
through the controller's own path if it has one (R80, R117; decisions D9 and D23, log 16 and 28). -/
def Obligations.OutP2StoresPort2AndRequestsTheNmi : Prop :=
  ∀ (s : State) (c : Controller) (v : Byte), s.find s.self = some c →
    ∃ (t : State) (es : List Event), exec (.outP2 v) s = .next t ∧
      Ran s t { c with bank := { c.bank with port2 := v } } [] es ∧
      (v.getLsbD 7 = false ∧ c.bank.port2.getLsbD 6 = true ∧ v.getLsbD 6 = false → es = nmiEvents c) ∧
      (¬(v.getLsbD 7 = false ∧ c.bank.port2.getLsbD 6 = true ∧ v.getLsbD 6 = false) → es = [])

/-- R81: OUT 0x03 is suppressed while a transfer is active; idle, it stores and captures the byte, and with
TON or RON set it starts a transfer of `TXLEN(baudRate)` clocks and sets TXFL (BeginTransfer of R94). Idle, an
OUT 0x05, which may change TON and RON, starts none. -/
def Obligations.OutP3StoresAndMayStartATransfer : Prop :=
  ∀ (s : State) (c : Controller) (v : Byte), s.find s.self = some c →
    (c.serial.active = false → ∃ t d, exec (.outP5 v) s = .next t ∧ t.find s.self = some d ∧
      d.serial.active = false) ∧
    (c.serial.active = true → ∃ t, exec (.outP3 v) s = .next t ∧ Ran s t c [] []) ∧
    (c.serial.active = false → c.bank.port5.getLsbD 4 = false → c.bank.port5.getLsbD 5 = false →
      ∃ t, exec (.outP3 v) s = .next t ∧
        Ran s t { c with
          bank := { c.bank with port3 := v }
          serial := { c.serial with sendBuffer := v } } [] []) ∧
    (c.serial.active = false → (c.bank.port5.getLsbD 4 = true ∨ c.bank.port5.getLsbD 5 = true) →
      ∃ (t : State) (p5 : Byte), exec (.outP3 v) s = .next t ∧
        Ran s t { c with
          bank := { c.bank with port3 := v, port5 := p5 }
          serial :=
            { active := true
              clocksRemaining := (txlen c.serial.baudRate : Int)
              baudRate := c.serial.baudRate
              sendBuffer := v } } [] [] ∧
        p5.getLsbD 0 = true ∧ ∀ k, k ≠ 0 → p5.getLsbD k = c.bank.port5.getLsbD k)

/-- R82, R90: OUT 0x04 and OUT to 0xC0..0xFF change nothing. -/
def Obligations.OutP4AndOutNullHiChangeNothing : Prop :=
  ∀ (s : State) (c : Controller) (a v : Byte), s.find s.self = some c →
    (∃ t, exec (.outP4 v) s = .next t ∧ Ran s t c [] []) ∧
    (∃ t, exec (.outNullHi a v) s = .next t ∧ Ran s t c [] [])

/-- OUT 0x05 updates bits 7:3 of Port5 alone and recomputes the rate from bits 7:6; nothing else of the
serial state changes, whether or not a transfer runs (R83; decisions D13 and D15, log 19 and 21). -/
def Obligations.OutP5UpdatesTheControlBitsAndTheRate : Prop :=
  ∀ (s : State) (c : Controller) (v : Byte), s.find s.self = some c →
    ∃ (t : State) (p5 : Byte) (r : BaudRate), exec (.outP5 v) s = .next t ∧
      Ran s t { c with
        bank := { c.bank with port5 := p5 }
        serial := { c.serial with baudRate := r } } [] [] ∧
      (∀ k, k < 3 → p5.getLsbD k = c.bank.port5.getLsbD k) ∧
      (∀ k, 3 ≤ k → p5.getLsbD k = v.getLsbD k) ∧
      (v.toNat / 64 = 0 → r.hz = 4800) ∧ (v.toNat / 64 = 1 → r.hz = 2400) ∧
      (v.toNat / 64 = 2 → r.hz = 1200) ∧ (v.toNat / 64 = 3 → r.hz = 300)

/-- OUT 0x06 stores Port6 and forwards the byte to the audio device (R84; the store is decision D10,
log 32). -/
def Obligations.OutP6StoresAndForwards : Prop :=
  ∀ (s : State) (c : Controller) (v : Byte), s.find s.self = some c →
    ∃ t, exec (.outP6 v) s = .next t ∧
      Ran s t { c with bank := { c.bank with port6 := v } } [] [.call s.self (.writeStereoRegister v)]

/-- R85: OUT to an even port of 0x08..0x3E forwards the byte to the memory controller and changes no
register. -/
def Obligations.OutMemctlForwards : Prop :=
  ∀ (s : State) (c : Controller) (a v : Byte), s.find s.self = some c →
    ∃ t, exec (.outMemctl a v) s = .next t ∧
      Ran s t c [] [.call s.self (.setMemoryControlRegister v)]

/-- R87, R88, R89: OUT to 0x40..0xBF forwards the byte to the audio or video device and changes no
register. -/
def Obligations.OutPsgVdataVctlForward : Prop :=
  ∀ (s : State) (c : Controller) (a v : Byte), s.find s.self = some c →
    (∃ t, exec (.outPsg a v) s = .next t ∧ Ran s t c [] [.call s.self (.writeToneRegister v)]) ∧
    (∃ t, exec (.outVdata a v) s = .next t ∧ Ran s t c [] [.call s.self (.writeData v)]) ∧
    (∃ t, exec (.outVctl a v) s = .next t ∧ Ran s t c [] [.call s.self (.writeControl v)])

/-- OUT to an odd port of 0x07..0x3F: Port3F_HC takes the trigger bits of the value; Port3F takes bit 7 in
bit 7 and bit 5 in bit 6, zeros below, all complemented under `JapanVariant`; the H-counter is latched once
if a trigger bit rises (R86; decisions D11 and D12, log 17 and 18). -/
def Obligations.OutIoctlLatchesAndWritesTheShadows : Prop :=
  ∀ (s : State) (c : Controller) (a v : Byte), s.find s.self = some c →
    ∃ (t : State) (p h : Byte) (es : List Event), exec (.outIoctl a v) s = .next t ∧
      Ran s t { c with bank := { c.bank with port3F := p, port3FHC := h } } [] es ∧
      (∀ k, h.getLsbD k = (v.getLsbD k && s.config.hcTriggerMask.getLsbD k)) ∧
      (c.config.region ≠ .japanVariant →
        p.getLsbD 7 = v.getLsbD 7 ∧ p.getLsbD 6 = v.getLsbD 5 ∧ ∀ k, k < 6 → p.getLsbD k = false) ∧
      (c.config.region = .japanVariant →
        p.getLsbD 7 = !v.getLsbD 7 ∧ p.getLsbD 6 = !v.getLsbD 5 ∧ ∀ k, k < 6 → p.getLsbD k = true) ∧
      ((∃ k, v.getLsbD k = true ∧ s.config.hcTriggerMask.getLsbD k = true ∧
          c.bank.port3FHC.getLsbD k = false) → es = [.call s.self .latchHCounter]) ∧
      ((∀ k, v.getLsbD k = true → s.config.hcTriggerMask.getLsbD k = true →
          c.bank.port3FHC.getLsbD k = true) → es = [])

/-- R77: an OUT's port is bits 15:8 of its word and its value bits 7:0; every OUT completes, returns nothing
and changes no link; a forwarding OUT records one call with the value and, but for OUT 0x06, changes no
register. -/
def Obligations.WritesReturnNothingAndKeepLinks : Prop :=
  (∀ w : CommandWord, fieldCmd w = 0x1 → (decode w).isOut = true ∧
    (decode w).outOperands = some (w.extractLsb' 8 8, w.extractLsb' 0 8)) ∧
  (∀ (i : Instr) (s : State), i.isOut = true → s.self ∈ s.ids → ∃ t, exec i s = .next t) ∧
  (∀ (i : Instr) (s t : State), i.isOut = true → exec i s = .next t →
    t.results = s.results ∧
    (∀ j c d, s.find j = some c → t.find j = some d → d.peer = c.peer) ∧
    (∀ a v w, (i = .outMemctl a v ∧ w = .setMemoryControlRegister v) ∨
        (i = .outPsg a v ∧ w = .writeToneRegister v) ∨ (i = .outVdata a v ∧ w = .writeData v) ∨
        (i = .outVctl a v ∧ w = .writeControl v) →
      t.controllers = s.controllers ∧ t.events = s.events ++ [.call s.self w]) ∧
    (∀ v, i = .outP6 v → t.events = s.events ++ [.call s.self (.writeStereoRegister v)]))

/-! ### Serial -/

/-- The selector table and the transfer length: `ceil(3579545 / rate) * 8`, the ceiling taken first, with the
four values (R91, R92; the table's order is decision D13, log 19, the values are the spec's derivation). -/
def Obligations.RatesAndTransferLengths : Prop :=
  ((baudRateOf 0).hz = 4800 ∧ (baudRateOf 1).hz = 2400 ∧ (baudRateOf 2).hz = 1200 ∧
    (baudRateOf 3).hz = 300) ∧
  (∀ r : BaudRate, ∃ k : Nat, txlen r = (k + 1) * 8 ∧ k * r.hz < 3579545 ∧ 3579545 ≤ (k + 1) * r.hz) ∧
  (txlen .b4800 = 5968 ∧ txlen .b2400 = 11936 ∧ txlen .b1200 = 23864 ∧ txlen .b300 = 95456)

/-- ADVANCE does nothing while idle, counts down while clocks remain, and at 0 or below ends the transfer
and clears TXFL; with no peer the byte is discarded (R95, R97; decisions D16 and D17, log 22 and 23). -/
def Obligations.AdvanceCountsDownAndCompletes : Prop :=
  ∀ (s : State) (c : Controller) (n : BitVec 16), s.find s.self = some c →
    (c.serial.active = false → ∃ t, exec (.advance n) s = .next t ∧ Ran s t c [] []) ∧
    (c.serial.active = true → (n.toNat : Int) < c.serial.clocksRemaining →
      ∃ t, exec (.advance n) s = .next t ∧
        Ran s t { c with
          serial := { c.serial with clocksRemaining := c.serial.clocksRemaining - n.toNat } } [] []) ∧
    (c.serial.active = true → c.serial.clocksRemaining ≤ (n.toNat : Int) → c.peer = none →
      ∃ (t : State) (p5 : Byte), exec (.advance n) s = .next t ∧
        Ran s t { c with
          bank := { c.bank with port5 := p5 }
          serial := { c.serial with
            active := false
            clocksRemaining := c.serial.clocksRemaining - n.toNat } } [] [] ∧
        p5.getLsbD 0 = false ∧ ∀ k, k ≠ 0 → p5.getLsbD k = c.bank.port5.getLsbD k)

/-- An ADVANCE that completes a transfer with a peer delivers the captured byte to it, once, after which the
peer has received it: dropped with RON clear, else Port4 and RXRD written and, with INT set, its NMI requested
(R95, R97, R98, R99; decisions D17, D18, D23, D26 and D31, log 23, 24, 28 and 30). -/
def Obligations.AdvanceDeliversToThePeer : Prop :=
  ∀ (s : State) (c d : Controller) (p : InstanceId) (n : BitVec 16),
    s.find s.self = some c → c.peer = some p → p ≠ s.self → s.find p = some d →
    c.serial.active = true → c.serial.clocksRemaining ≤ (n.toNat : Int) →
    ∃ (t : State) (c' d' : Controller) (p5 : Byte) (es : List Event), exec (.advance n) s = .next t ∧
      RanBoth s t c' p d' [] (.peerDelivery s.self p c.serial.sendBuffer :: es) ∧
      c' = { c with
        bank := { c.bank with port5 := p5 }
        serial := { c.serial with
          active := false
          clocksRemaining := c.serial.clocksRemaining - n.toNat } } ∧
      p5.getLsbD 0 = false ∧ (∀ k, k ≠ 0 → p5.getLsbD k = c.bank.port5.getLsbD k) ∧
      (d.bank.port5.getLsbD 5 = false → d' = d ∧ es = []) ∧
      (d.bank.port5.getLsbD 5 = true →
        ∃ q5 : Byte, d' = { d with bank := { d.bank with port4 := c.serial.sendBuffer, port5 := q5 } } ∧
          q5.getLsbD 1 = true ∧ (∀ k, k ≠ 1 → q5.getLsbD k = d.bank.port5.getLsbD k) ∧
          (d.bank.port5.getLsbD 3 = true → es = nmiEvents d) ∧
          (d.bank.port5.getLsbD 3 = false → es = []))

/-- RECEIVE: dropped with RON clear; else Port4 takes the byte and RXRD is set, whatever it was, and with INT
set the NMI is requested; no delivery is recorded (R99, R100; decisions D18 and D23, log 24 and 28). -/
def Obligations.ReceiveStoresTheByteWhenEnabled : Prop :=
  ∀ (s : State) (c : Controller) (b : Byte), s.find s.self = some c →
    (c.bank.port5.getLsbD 5 = false → ∃ t, exec (.receive b) s = .next t ∧ Ran s t c [] []) ∧
    (c.bank.port5.getLsbD 5 = true →
      ∃ (t : State) (p5 : Byte) (es : List Event), exec (.receive b) s = .next t ∧
        Ran s t { c with bank := { c.bank with port4 := b, port5 := p5 } } [] es ∧
        p5.getLsbD 1 = true ∧ (∀ k, k ≠ 1 → p5.getLsbD k = c.bank.port5.getLsbD k) ∧
        (c.bank.port5.getLsbD 3 = true → es = nmiEvents c) ∧
        (c.bank.port5.getLsbD 3 = false → es = []))

/-- BAUD sets the rate its selector names and writes no register (R101; decisions D13 and D14, log 19 and
20). -/
def Obligations.BaudSetsTheRateAlone : Prop :=
  ∀ (s : State) (c : Controller) (sel : BitVec 2), s.find s.self = some c →
    ∃ (t : State) (r : BaudRate), exec (.baud sel) s = .next t ∧
      Ran s t { c with serial := { c.serial with baudRate := r } } [] [] ∧
      (sel = 0 → r.hz = 4800) ∧ (sel = 1 → r.hz = 2400) ∧
      (sel = 2 → r.hz = 1200) ∧ (sel = 3 → r.hz = 300)

/-- R93: a controller starts a transfer exactly in an OUT 0x03 with TON or RON set while idle, ends one
exactly in an ADVANCE that reaches 0 or in a RESET, and no command moves another controller's machine; every
machine is idle at boot. -/
def Obligations.SerialMachineMovesOnlyByItsTransitions : Prop :=
  (∀ c ∈ State.reset.controllers, c.serial.active = false) ∧
  ∀ (i : Instr) (s t : State), exec i s = .next t →
    (∀ c d, s.find s.self = some c → t.find s.self = some d →
      (c.serial.active = false →
        (d.serial.active = true ↔ ∃ v, i = .outP3 v ∧
          (c.bank.port5.getLsbD 4 = true ∨ c.bank.port5.getLsbD 5 = true))) ∧
      (c.serial.active = true →
        (d.serial.active = false ↔ i = .reset ∨
          ∃ n, i = .advance n ∧ c.serial.clocksRemaining ≤ (n.toNat : Int)))) ∧
    (∀ j c d, j ≠ s.self → s.find j = some c → t.find j = some d →
      d.serial.active = c.serial.active)

/-- The four fields of the serial state, `active`, `clocksRemaining`, `baudRate` and `sendBuffer`, change only
in the commands of R35's table, on the addressed controller (decisions D14, D17, D21, log 20, 23, 26). -/
def Obligations.SerialFieldsChangeOnlyByTheirWriters : Prop :=
  ∀ (i : Instr) (s t : State) (j : InstanceId) (c d : Controller),
    exec i s = .next t → s.find j = some c → t.find j = some d →
    (d.serial.active ≠ c.serial.active →
      j = s.self ∧ ((∃ v, i = .outP3 v ∧ c.serial.active = false) ∨
        (∃ n, i = .advance n ∧ c.serial.active = true) ∨ i = .reset)) ∧
    (d.serial.baudRate ≠ c.serial.baudRate →
      j = s.self ∧ ((∃ v, i = .outP5 v) ∨ (∃ x, i = .baud x) ∨ i = .reset)) ∧
    (d.serial.sendBuffer ≠ c.serial.sendBuffer →
      j = s.self ∧ ((∃ v, i = .outP3 v ∧ c.serial.active = false) ∨ i = .reset)) ∧
    (d.serial.clocksRemaining ≠ c.serial.clocksRemaining →
      j = s.self ∧ ((∃ v, i = .outP3 v ∧ c.serial.active = false) ∨
        (∃ n, i = .advance n ∧ c.serial.active = true) ∨ i = .reset))

/-- Two advances of `a` and `b` clocks do what one of `a + b` does, to every register, to `active`, to the
peer and to the output events, up to the count of an idle countdown and the diagnostics; `a` and `b` are any
counts (R96, the spec's derivation; decision D17, log 23). -/
def Obligations.AdvanceSplitsIntoTwo : Prop :=
  ∀ (s : State) (a b : Nat),
    mapNext State.forgetIdleCounts (andThen (s.advanceBy a) fun t => t.advanceBy b) =
      mapNext State.forgetIdleCounts (s.advanceBy (a + b))

/-- The pseudo-instruction ADVANCE n, n > 65535, does what one advance of n does (R60, R96; decisions D4 and
D17, log 23 and 36). -/
def Obligations.AdvanceLinesAdvanceByTheirTotal : Prop :=
  ∀ (s : State) (n : Nat), 65535 < n →
    mapNext State.forgetIdleCounts (execAll (advanceLines n) s) =
      mapNext State.forgetIdleCounts (s.advanceBy n)

/-! ### Links -/

/-- LINK names a peer in `INSTANCES`; a self-link changes nothing; an unknown identifier is refused (R104;
decision D25, log 29). -/
def Obligations.LinkSetsTheReference : Prop :=
  ∀ (s : State) (c : Controller) (other : InstanceId), s.find s.self = some c →
    (other = s.self → ∃ t, exec (.link other) s = .next t ∧ Ran s t c [] []) ∧
    (other ≠ s.self → other ∈ s.ids →
      ∃ t, exec (.link other) s = .next t ∧ Ran s t { c with peer := some other } [] []) ∧
    (other ≠ s.self → other ∉ s.ids → exec (.link other) s = .refused .unknownPeer)

/-- UNLINK clears the reference and nothing else (R105); an ADVANCE that reaches the end of a transfer in
progress then counts it down to its end, clears TXFL, and does nothing else: no delivery, no other controller
changed (R95, R97; the count it leaves is decision D17, log 23). -/
def Obligations.UnlinkClearsTheReference : Prop :=
  ∀ (s : State) (c : Controller), s.find s.self = some c →
    ∃ t, exec .unlink s = .next t ∧ Ran s t { c with peer := none } [] [] ∧
      ∀ n : BitVec 16, c.serial.active = true → c.serial.clocksRemaining ≤ (n.toNat : Int) →
        ∃ (u : State) (p5 : Byte), exec (.advance n) t = .next u ∧
          Ran t u { c with
            peer := none
            bank := { c.bank with port5 := p5 }
            serial := { c.serial with
              active := false
              clocksRemaining := c.serial.clocksRemaining - n.toNat } } [] [] ∧
          p5.getLsbD 0 = false ∧ ∀ k, k ≠ 0 → p5.getLsbD k = c.bank.port5.getLsbD k

/-- A link reference changes only in a LINK or UNLINK of its own controller (R37; decision D25, log 29). -/
def Obligations.LinksChangeOnlyByLinkAndUnlink : Prop :=
  ∀ (i : Instr) (s t : State) (j : InstanceId) (c d : Controller),
    exec i s = .next t → s.find j = some c → t.find j = some d → d.peer ≠ c.peer →
    j = s.self ∧ (i = .unlink ∧ d.peer = none ∨
      ∃ other, i = .link other ∧ other ≠ s.self ∧ other ∈ s.ids ∧ d.peer = some other)

/-! ### Persistence -/

/-- R110: SAVE returns Port3F, then Port3F_HC, raw, and changes no state. -/
def Obligations.SaveReturnsTheShadows : Prop :=
  ∀ (s : State) (c : Controller), s.find s.self = some c →
    ∃ t, exec .save s = .next t ∧ Ran s t c [.pair s.self c.bank.port3F c.bank.port3FHC] []

/-- LOAD stores its two bytes raw and nothing else; while a transfer is active it is refused (R111; decision
D22, log 27). -/
def Obligations.LoadStoresTheShadows : Prop :=
  ∀ (s : State) (c : Controller) (b0 b1 : Byte), s.find s.self = some c →
    (c.serial.active = false → ∃ t, exec (.load b0 b1) s = .next t ∧
      Ran s t { c with bank := { c.bank with port3F := b0, port3FHC := b1 } } [] []) ∧
    (c.serial.active = true → exec (.load b0 b1) s = .refused .loadDuringTransfer)

/-- The bytes a SAVE returned, loaded later into the same idle instance whatever came between, restore both
shadow registers exactly (R112, the spec's derivation; decision D22, log 27). -/
def Obligations.SaveThenLoadRestoresTheShadows : Prop :=
  ∀ (s t : State) (c : Controller), s.find s.self = some c → exec .save s = .next t →
    ∃ p h : Byte, t.results = s.results ++ [.pair s.self p h] ∧
      ∀ (s' : State) (c' : Controller), s'.self = s.self → s'.find s'.self = some c' →
        c'.serial.active = false →
        ∃ (t' : State) (d : Controller), exec (.load p h) s' = .next t' ∧ t'.find s.self = some d ∧
          d.bank.port3F = c.bank.port3F ∧ d.bank.port3FHC = c.bank.port3FHC

/-! ### Reset and boot -/

/-- RESET gives every register its reset value, aborts any transfer with no delivery, clears the serial state
and keeps the link; a second RESET changes nothing (R129; decisions D13, D20 and D21, log 2, 19 and 26). -/
def Obligations.ResetRestoresTheResetValues : Prop :=
  ∀ (s : State) (c : Controller), s.find s.self = some c →
    ∃ t, exec .reset s = .next t ∧
      Ran s t { c with
        bank := s.config.resetValue
        serial :=
          { active := false
            clocksRemaining := 0
            baudRate := baudRateOf (s.config.resetValue.port5.extractLsb' 6 2)
            sendBuffer := 0x00 } } [] [] ∧
      exec .reset t = .next t

/-- At boot the invariant holds, and every controller is unlinked and as RESET leaves it (R130; decision D32,
log 4; the values are those of log 2 and 3). -/
def Obligations.BootHasTheInvariant : Prop :=
  State.reset.Inv ∧
    ∀ c ∈ State.reset.controllers,
      c.peer = none ∧ c.afterReset State.reset.config.resetValue = c

/-! ### Rules of the whole machine -/

/-- Every step keeps the invariant: TXFL is `active`, an active transfer's byte is in Port3 and its count is
positive (R36), no link names its own controller or a missing one (R37, R107), the parameters keep their
constraints (R22, D11) and `INSTANCES` its form (the model's, log 35). -/
def Obligations.EveryStepKeepsTheInvariant : Prop :=
  ∀ s t : State, s.Inv → step s = .next t → t.Inv

/-- Where no link dangles, a command is refused in the four cases of the spec, each under its own name, and
in no other (R115, R107; decisions D3, D22 and D25, log 10, 27 and 29). -/
def Obligations.RefusalsAreExactlyTheFourCases : Prop :=
  ∀ (i : Instr) (s : State) (r : Refusal), s.linkOk →
    (exec i s = .refused r ↔ RefusedBySpec i s r)

/-- The NMI has exactly two sources: a command requests the NMI of a controller exactly when that controller
has an interrupt path and the Port2 edge, or a Receive with RON and INT set, falls due (R116, R117; decisions
D9 and D23, log 16 and 28). -/
def Obligations.NmiHasExactlyTwoSources : Prop :=
  ∀ (i : Instr) (s t : State), exec i s = .next t →
    ∃ es : List Event, t.events = s.events ++ es ∧
      ∀ j, Event.nmiRequest j ∈ es ↔
        ∃ d, s.find j = some d ∧ d.config.nmiPath = true ∧ NmiDue i s j d

/-- Each register changes only in the commands R20 names as its writers: on the addressed controller, or
Port4 and Port5 of the peer through a delivery (R20, R98; decision D26, log 30). -/
def Obligations.RegistersChangeOnlyByTheirWriters : Prop :=
  ∀ (i : Instr) (s t : State) (j : InstanceId) (c d : Controller) (r : Reg),
    exec i s = .next t → s.find j = some c → t.find j = some d → d.reg r ≠ c.reg r →
    (j = s.self ∧ mayWrite i r = true) ∨
      ((r = .port4 ∨ r = .port5) ∧ ∃ n b, i = .advance n ∧ DeliversTo s n.toNat j b)

/-- The status bits of Port5 change only by the rules named for them: TXFL by a transfer start, a completion
or RESET; RXRD by Receive, IN 0x04 or RESET; bit 2 by RESET alone (R28, R30; decision D19, log 25). -/
def Obligations.StatusBitsChangeOnlyByTheBlock : Prop :=
  ∀ (i : Instr) (s t : State) (j : InstanceId) (c d : Controller),
    s.config.wf → exec i s = .next t → s.find j = some c → t.find j = some d →
    (c.bank.port5.getLsbD 0 = false → d.bank.port5.getLsbD 0 = true →
      j = s.self ∧ ∃ v, i = .outP3 v ∧ c.serial.active = false ∧
        (c.bank.port5.getLsbD 4 = true ∨ c.bank.port5.getLsbD 5 = true)) ∧
    (c.bank.port5.getLsbD 0 = true → d.bank.port5.getLsbD 0 = false →
      j = s.self ∧ (i = .reset ∨ ∃ n, i = .advance n ∧ c.serial.active = true ∧
        c.serial.clocksRemaining ≤ (n.toNat : Int))) ∧
    (c.bank.port5.getLsbD 1 = false → d.bank.port5.getLsbD 1 = true →
      (j = s.self ∧ i = .reset) ∨
      (c.bank.port5.getLsbD 5 = true ∧ ((j = s.self ∧ ∃ b, i = .receive b) ∨
        ∃ n b, i = .advance n ∧ DeliversTo s n.toNat j b))) ∧
    (c.bank.port5.getLsbD 1 = true → d.bank.port5.getLsbD 1 = false →
      j = s.self ∧ (i = .inP4 ∨ i = .reset)) ∧
    (d.bank.port5.getLsbD 2 ≠ c.bank.port5.getLsbD 2 → j = s.self ∧ i = .reset)

/-- A command changes no other controller, but for a delivery, which writes Port4 and RXRD of the peer and
only if the peer's RON is set (R18, R98, R126; decisions D18, D25 and D26, log 24, 29 and 30). -/
def Obligations.OtherControllersOnlyReceive : Prop :=
  ∀ (i : Instr) (s t : State) (j : InstanceId), exec i s = .next t → j ≠ s.self →
    t.find j ≠ s.find j →
    ∃ (n : BitVec 16) (b : Byte) (d d' : Controller) (q5 : Byte),
      i = .advance n ∧ DeliversTo s n.toNat j b ∧ s.find j = some d ∧ t.find j = some d' ∧
      d.bank.port5.getLsbD 5 = true ∧
      d' = { d with bank := { d.bank with port4 := b, port5 := q5 } } ∧
      q5.getLsbD 1 = true ∧ ∀ k, k ≠ 1 → q5.getLsbD k = d.bank.port5.getLsbD k

/-- Port0 and Port6 of any controller are never observed: a command on two states that differ in them alone
answers alike, with the same results and events, and the next states differ in them alone (R20, R38; decision
D10, log 32). -/
def Obligations.UnreadRegistersAreNeverObserved : Prop :=
  ∀ (i : Instr) (s s' : State), s.forgetUnread = s'.forgetUnread →
    mapNext State.forgetUnread (exec i s) = mapNext State.forgetUnread (exec i s')
end

