-- ==== Sys2Proof/Laws/Bytes.lean ====
section
/-! SUPPORT. The bits of the flag and operand computations. -/

namespace Sys2Proof.Machine

theorem setTxfl_getLsbD (v : Byte) (k : Nat) :
    (setTxfl v).getLsbD k = (v.getLsbD k || decide (k = 0)) := by
  unfold setTxfl
  rw [BitVec.getLsbD_or]
  congr 1
  match k with
  | 0 => rfl
  | n + 1 => simp [BitVec.getLsbD_one]

@[simp] theorem txfl_setTxfl (v : Byte) : txfl (setTxfl v) = true := by
  unfold txfl
  rw [setTxfl_getLsbD]
  simp

theorem getLsbD_lit_fe (k : Nat) : (0xFE : Byte).getLsbD k = decide (1 ≤ k ∧ k < 8) := by
  match k with
  | 0 | 1 | 2 | 3 | 4 | 5 | 6 | 7 => rfl
  | n + 8 => simp

theorem getLsbD_lit_fd (k : Nat) : (0xFD : Byte).getLsbD k = decide (k ≠ 1 ∧ k < 8) := by
  match k with
  | 0 | 1 | 2 | 3 | 4 | 5 | 6 | 7 => rfl
  | n + 8 => simp

theorem getLsbD_lit_02 (k : Nat) : (0x02 : Byte).getLsbD k = decide (k = 1) := by
  match k with
  | 0 | 1 | 2 | 3 | 4 | 5 | 6 | 7 => rfl
  | n + 8 => simp

theorem clearTxfl_getLsbD (v : Byte) (k : Nat) :
    (clearTxfl v).getLsbD k = (v.getLsbD k && decide (1 ≤ k ∧ k < 8)) := by
  unfold clearTxfl
  rw [BitVec.getLsbD_and, getLsbD_lit_fe]

@[simp] theorem txfl_clearTxfl (v : Byte) : txfl (clearTxfl v) = false := by
  unfold txfl
  rw [clearTxfl_getLsbD]
  simp

@[simp] theorem ron_clearTxfl (v : Byte) : ron (clearTxfl v) = ron v := by
  unfold ron
  rw [clearTxfl_getLsbD]
  simp

@[simp] theorem intEnable_clearTxfl (v : Byte) : intEnable (clearTxfl v) = intEnable v := by
  unfold intEnable
  rw [clearTxfl_getLsbD]
  simp

theorem setRxrd_getLsbD (v : Byte) (k : Nat) :
    (setRxrd v).getLsbD k = (v.getLsbD k || decide (k = 1)) := by
  unfold setRxrd
  rw [BitVec.getLsbD_or, getLsbD_lit_02]

@[simp] theorem txfl_setRxrd (v : Byte) : txfl (setRxrd v) = txfl v := by
  unfold txfl
  rw [setRxrd_getLsbD]
  simp

theorem clearRxrd_getLsbD (v : Byte) (k : Nat) :
    (clearRxrd v).getLsbD k = (v.getLsbD k && decide (k ≠ 1 ∧ k < 8)) := by
  unfold clearRxrd
  rw [BitVec.getLsbD_and, getLsbD_lit_fd]

@[simp] theorem txfl_clearRxrd (v : Byte) : txfl (clearRxrd v) = txfl v := by
  unfold txfl
  rw [clearRxrd_getLsbD]
  simp

/-- OUT 0x05 takes bits 7:3 from the value and keeps bits 2:0 (R83). -/
theorem writeControl_getLsbD (old value : Byte) (k : Nat) (hk : k < 8) :
    (writeControl old value).getLsbD k = if k < 3 then old.getLsbD k else value.getLsbD k := by
  unfold writeControl
  rw [BitVec.getLsbD_or, BitVec.getLsbD_and, BitVec.getLsbD_and]
  match k, hk with
  | 0, _ | 1, _ | 2, _ | 3, _ | 4, _ | 5, _ | 6, _ | 7, _ => simp

@[simp] theorem txfl_writeControl (old value : Byte) : txfl (writeControl old value) = txfl old := by
  unfold txfl
  rw [writeControl_getLsbD _ _ _ (by decide)]
  simp

/-- A transfer starts with a positive count. -/
theorem txlen_pos (r : BaudRate) : 0 < txlen r := by
  cases r <;> decide

/-- Making one bit of a byte. -/
theorem withBit_getLsbD (r : Byte) (i k : Nat) (hi : i < 8) (b : Bool) :
    (withBit r i b).getLsbD k = if k = i then b else r.getLsbD k := by
  have hb : (BitVec.ofNat 8 (2 ^ i)).getLsbD k = decide (k = i) := by
    rw [BitVec.getLsbD_ofNat, Nat.testBit_two_pow]
    by_cases h : i = k <;> simp [h] <;> omega
  unfold withBit
  generalize BitVec.ofNat 8 (2 ^ i) = m at hb
  by_cases h8 : k < 8
  · cases b
    · rw [if_neg (by decide), BitVec.getLsbD_and, BitVec.getLsbD_not, hb]
      by_cases h : k = i <;> simp [h, h8]
    · rw [if_pos rfl, BitVec.getLsbD_or, hb]
      by_cases h : k = i <;> simp [h]
  · have h : k ≠ i := by omega
    have h8' : 8 ≤ k := by omega
    simp [h, BitVec.getLsbD_of_ge _ _ h8']

theorem mergeLine_getLsbD (p : RegBank) (r : Byte) (i k : Nat) (hi : i < 8) :
    (mergeLine p r i).getLsbD k =
      if k = i ∧ isOutputBit p (sigma i) = true then p.port1.getLsbD (sigma i) else r.getLsbD k := by
  unfold mergeLine
  cases h : isOutputBit p (sigma i) <;> simp [withBit_getLsbD, hi]

theorem padMask_getLsbD (v : Byte) (k : Nat) : (padMask v).getLsbD k = (v.getLsbD k && decide (k < 7)) := by
  unfold padMask
  rw [BitVec.getLsbD_and]
  match k with
  | 0 | 1 | 2 | 3 | 4 | 5 | 6 | 7 => simp
  | n + 8 => simp [BitVec.getLsbD_of_ge]

/-- The bits of the merge: a line the peer drives is the peer's, every other is the draw's, and bit 7 is 0
(R64). -/
theorem padMerge_getLsbD (p : RegBank) (v : Byte) (k : Nat) :
    (padMerge p v).getLsbD k =
      (decide (k < 7) &&
        if isOutputBit p (sigma k) then p.port1.getLsbD (sigma k) else v.getLsbD k) := by
  unfold padMerge dataLines
  simp only [List.foldl]
  rw [mergeLine_getLsbD _ _ _ _ (by decide), mergeLine_getLsbD _ _ _ _ (by decide),
    mergeLine_getLsbD _ _ _ _ (by decide), mergeLine_getLsbD _ _ _ _ (by decide),
    mergeLine_getLsbD _ _ _ _ (by decide), mergeLine_getLsbD _ _ _ _ (by decide),
    mergeLine_getLsbD _ _ _ _ (by decide), padMask_getLsbD]
  match k with
  | 0 | 1 | 2 | 3 | 4 | 5 | 6 => simp
  | n + 7 => simp

end Sys2Proof.Machine
end

