-- ==== Sys2Proof/Laws/Decode.lean ====
section
/-! SUPPORT. The fields of a packed command word, and decoding and masking through them. -/

namespace Sys2Proof

theorem packWord_getLsbD (c : BitVec 4) (a d : Byte) (k : Nat) :
    (packWord c a d).getLsbD k =
      if k < 8 then d.getLsbD k else if k < 16 then a.getLsbD (k - 8) else c.getLsbD (k - 16) := by
  unfold packWord
  rw [BitVec.getLsbD_append, BitVec.getLsbD_append]
  by_cases h : k < 8
  · simp [h]
  · by_cases h' : k < 16
    · have : k - 8 < 8 := by omega
      simp [h, h', this]
    · have : ¬ k - 8 < 8 := by omega
      simp [h, h', this, show k - 8 - 8 = k - 16 by omega]

@[simp] theorem fieldD_packWord (c : BitVec 4) (a d : Byte) : fieldD (packWord c a d) = d :=
  BitVec.extractLsb'_append_eq_right

@[simp] theorem fieldA_packWord (c : BitVec 4) (a d : Byte) : fieldA (packWord c a d) = a := by
  apply BitVec.eq_of_getLsbD_eq
  intro i hi
  have h : ¬ (8 + i < 8) ∧ 8 + i < 16 := by omega
  simp [fieldA, packWord_getLsbD, hi, h]

@[simp] theorem fieldCmd_packWord (c : BitVec 4) (a d : Byte) : fieldCmd (packWord c a d) = c := by
  apply BitVec.eq_of_getLsbD_eq
  intro i hi
  have h : ¬ (16 + i < 8) ∧ ¬ (16 + i < 16) := by omega
  simp [fieldCmd, packWord_getLsbD, hi, h]

/-- A word is its three fields. -/
theorem packWord_fields (w : CommandWord) : packWord (fieldCmd w) (fieldA w) (fieldD w) = w := by
  apply BitVec.eq_of_getLsbD_eq
  intro i hi
  rw [packWord_getLsbD]
  by_cases h : i < 8
  · simp [h, fieldD]
  · by_cases h' : i < 16
    · simp [h, h', fieldA, show i - 8 < 8 by omega, show 8 + (i - 8) = i by omega]
    · simp only [h, h', if_false, fieldCmd, BitVec.getLsbD_extractLsb', show 16 + (i - 16) = i by omega,
        show i - 16 < 4 by omega, decide_true, Bool.true_and]

/-- Masking acts on each field. -/
theorem packWord_and (c c' : BitVec 4) (a a' d d' : Byte) :
    packWord c a d &&& packWord c' a' d' = packWord (c &&& c') (a &&& a') (d &&& d') := by
  apply BitVec.eq_of_getLsbD_eq
  intro i hi
  simp only [BitVec.getLsbD_and, packWord_getLsbD]
  split
  · rfl
  · split <;> rfl

theorem packWord_inj {c c' : BitVec 4} {a a' d d' : Byte} :
    packWord c a d = packWord c' a' d' ↔ c = c' ∧ a = a' ∧ d = d' := by
  constructor
  · intro h
    refine ⟨?_, ?_, ?_⟩
    · simpa using congrArg fieldCmd h
    · simpa using congrArg fieldA h
    · simpa using congrArg fieldD h
  · rintro ⟨rfl, rfl, rfl⟩
    rfl

@[simp] theorem decode_packWord (c : BitVec 4) (a d : Byte) : decode (packWord c a d) = decodeFields c a d := by
  simp [decode]

theorem decode_encode_eq (i : Instr) :
    decode (encode i) = decodeFields (encodeFields i).1 (encodeFields i).2.1 (encodeFields i).2.2 := by
  simp [encode]

/-! ### Decoding at each command code (R53) -/

@[simp] theorem decodeFields_0 (a d : Byte) : decodeFields 0x0 a d = decodeIn a := rfl
@[simp] theorem decodeFields_1 (a d : Byte) : decodeFields 0x1 a d = decodeOut a d := rfl
@[simp] theorem decodeFields_2 (a d : Byte) : decodeFields 0x2 a d = .advance (a ++ d) := rfl
@[simp] theorem decodeFields_3 (a d : Byte) : decodeFields 0x3 a d = .receive d := rfl
@[simp] theorem decodeFields_4 (a d : Byte) : decodeFields 0x4 a d = .reset := rfl
@[simp] theorem decodeFields_6 (a d : Byte) : decodeFields 0x6 a d = .save := rfl
@[simp] theorem decodeFields_7 (a d : Byte) : decodeFields 0x7 a d = .load a d := rfl
@[simp] theorem decodeFields_8 (a d : Byte) : decodeFields 0x8 a d = .baud (d.extractLsb' 0 2) := rfl
@[simp] theorem decodeFields_9 (a d : Byte) : decodeFields 0x9 a d = .reserved9 (a ++ d) := rfl
@[simp] theorem decodeFields_5 (a d : Byte) :
    decodeFields 0x5 a d = if portOdd a then .link d else .unlink := rfl
@[simp] theorem decodeFields_A (a d : Byte) :
    decodeFields 0xA a d = .reservedAB ((0b0 : BitVec 1) ++ a ++ d) := rfl
@[simp] theorem decodeFields_B (a d : Byte) :
    decodeFields 0xB a d = .reservedAB ((0b1 : BitVec 1) ++ a ++ d) := rfl
@[simp] theorem decodeFields_C (a d : Byte) :
    decodeFields 0xC a d = .reservedCF ((0b00 : BitVec 2) ++ a ++ d) := rfl
@[simp] theorem decodeFields_D (a d : Byte) :
    decodeFields 0xD a d = .reservedCF ((0b01 : BitVec 2) ++ a ++ d) := rfl
@[simp] theorem decodeFields_E (a d : Byte) :
    decodeFields 0xE a d = .reservedCF ((0b10 : BitVec 2) ++ a ++ d) := rfl
@[simp] theorem decodeFields_F (a d : Byte) :
    decodeFields 0xF a d = .reservedCF ((0b11 : BitVec 2) ++ a ++ d) := rfl

/-- The sixteen command codes. -/
theorem cmd_cases (c : BitVec 4) :
    c = 0x0 ∨ c = 0x1 ∨ c = 0x2 ∨ c = 0x3 ∨ c = 0x4 ∨ c = 0x5 ∨ c = 0x6 ∨ c = 0x7 ∨ c = 0x8 ∨ c = 0x9 ∨
      c = 0xA ∨ c = 0xB ∨ c = 0xC ∨ c = 0xD ∨ c = 0xE ∨ c = 0xF := by
  revert c
  decide

/-- The bytes of a word of two bytes, joined. -/
theorem bytes_append (x : BitVec 16) : x.extractLsb' 8 8 ++ x.extractLsb' 0 8 = x := by
  apply BitVec.eq_of_getLsbD_eq
  intro i hi
  rw [BitVec.getLsbD_append]
  by_cases h : i < 8
  · simp [h]
  · simp [h, show i - 8 < 8 by omega, show 8 + (i - 8) = i by omega]

@[simp] theorem bytes_high (a d : Byte) : (a ++ d : BitVec 16).extractLsb' 8 8 = a :=
  BitVec.extractLsb'_append_eq_left

@[simp] theorem bytes_low (a d : Byte) : (a ++ d : BitVec 16).extractLsb' 0 8 = d :=
  BitVec.extractLsb'_append_eq_right

/-- What decoding an OUT address depends on: the seven single addresses, the range and the parity (R56). -/
theorem decodeOut_of_high (a v : Byte) (h : 6 < a.toNat) :
    decodeOut a v =
      if portRange a = 0 then (if portOdd a then .outIoctl a v else .outMemctl a v)
      else if portRange a = 1 then .outPsg a v
      else if portRange a = 2 then (if portOdd a then .outVctl a v else .outVdata a v)
      else .outNullHi a v := by
  have hn : ∀ b : Byte, b.toNat ≤ 6 → a ≠ b := by
    rintro b hb rfl
    omega
  simp [decodeOut, hn]

/-- The seven lowest addresses, or one above (R56). -/
theorem port_low_cases (a : Byte) :
    a = 0 ∨ a = 1 ∨ a = 2 ∨ a = 3 ∨ a = 4 ∨ a = 5 ∨ a = 6 ∨ 6 < a.toNat := by
  revert a
  decide

/-- The range and the parity of a port address as numbers. -/
theorem port_facts (a : Byte) :
    (portRange a = 0 ↔ a.toNat ≤ 0x3F) ∧
    (portRange a = 1 ↔ 0x40 ≤ a.toNat ∧ a.toNat ≤ 0x7F) ∧
    (portRange a = 2 ↔ 0x80 ≤ a.toNat ∧ a.toNat ≤ 0xBF) ∧
    (portRange a = 3 ↔ 0xC0 ≤ a.toNat) ∧
    (portOdd a = true ↔ a.toNat % 2 = 1) := by
  revert a
  decide

/-- The decoder and a command word written as a number of 20 bits. -/
theorem commandWordOf_toNat (w : CommandWord) : commandWordOf 20 w.toNat = .ok w := by
  have h : w.toNat < 2 ^ 20 := w.isLt
  unfold commandWordOf
  rw [Nat.mod_eq_of_lt h, if_pos h, BitVec.ofNat_toNat, BitVec.setWidth_eq]

theorem decodeTableWord_toNat (w : CommandWord) : decodeTableWord 20 w.toNat = some (decode w) := by
  simp [decodeTableWord, commandWordOf_toNat]

end Sys2Proof
end

