-- ==== Sys2Proof/Laws/State.lean ====
section
/-! SUPPORT. One lemma per field and per update of the state: what each basic operation leaves and what it
writes. The normal form of an output is `emit`, `diag` or `answer`. -/

namespace Sys2Proof.Machine

variable (s : State) (c : Controller) (e : Event) (r : CommandResult) (i : InstanceId) (k : DiagCode)

/-! ### put -/
@[simp] theorem put_config : (s.put c).config = s.config := rfl
@[simp] theorem put_controllers : (s.put c).controllers = putIn s.controllers c := rfl
@[simp] theorem put_self : (s.put c).self = s.self := rfl
@[simp] theorem put_draw : (s.put c).draw = s.draw := rfl
@[simp] theorem put_pending : (s.put c).pending = s.pending := rfl
@[simp] theorem put_results : (s.put c).results = s.results := rfl
@[simp] theorem put_events : (s.put c).events = s.events := rfl
@[simp] theorem put_diagnostics : (s.put c).diagnostics = s.diagnostics := rfl

/-! ### emit -/
@[simp] theorem emit_config : (s.emit e).config = s.config := rfl
@[simp] theorem emit_controllers : (s.emit e).controllers = s.controllers := rfl
@[simp] theorem emit_self : (s.emit e).self = s.self := rfl
@[simp] theorem emit_draw : (s.emit e).draw = s.draw := rfl
@[simp] theorem emit_pending : (s.emit e).pending = s.pending := rfl
@[simp] theorem emit_results : (s.emit e).results = s.results := rfl
@[simp] theorem emit_events : (s.emit e).events = s.events ++ [e] := rfl
@[simp] theorem emit_diagnostics : (s.emit e).diagnostics = s.diagnostics := rfl

/-! ### diag -/
@[simp] theorem diag_config : (s.diag i k).config = s.config := rfl
@[simp] theorem diag_controllers : (s.diag i k).controllers = s.controllers := rfl
@[simp] theorem diag_self : (s.diag i k).self = s.self := rfl
@[simp] theorem diag_draw : (s.diag i k).draw = s.draw := rfl
@[simp] theorem diag_pending : (s.diag i k).pending = s.pending := rfl
@[simp] theorem diag_results : (s.diag i k).results = s.results := rfl
@[simp] theorem diag_events : (s.diag i k).events = s.events := rfl

/-! ### answer -/
@[simp] theorem answer_config : (s.answer r).config = s.config := rfl
@[simp] theorem answer_controllers : (s.answer r).controllers = s.controllers := rfl
@[simp] theorem answer_self : (s.answer r).self = s.self := rfl
@[simp] theorem answer_draw : (s.answer r).draw = s.draw := rfl
@[simp] theorem answer_pending : (s.answer r).pending = s.pending := rfl
@[simp] theorem answer_results : (s.answer r).results = s.results ++ [r] := rfl
@[simp] theorem answer_events : (s.answer r).events = s.events := rfl
@[simp] theorem answer_diagnostics : (s.answer r).diagnostics = s.diagnostics := rfl

/-! ### the outputs of the current instance, in normal form -/
@[simp] theorem answerByte_eq (v : Byte) : s.answerByte v = s.answer (.byte s.self v) := rfl
@[simp] theorem call_eq (w : DeviceCall) : s.call w = s.emit (.call s.self w) := rfl
@[simp] theorem drawn_eq (d : DeviceRead) : s.drawn d = s.emit (.read s.self d s.draw) := rfl
@[simp] theorem readDevice_eq (d : DeviceRead) :
    s.readDevice d = (s.emit (.read s.self d s.draw)).answer (.byte s.self s.draw) := rfl

/-! ### finding and the identifiers after an output -/
@[simp] theorem find_emit (j : InstanceId) : (s.emit e).find j = s.find j := rfl
@[simp] theorem find_diag (j : InstanceId) : (s.diag i k).find j = s.find j := rfl
@[simp] theorem find_answer (j : InstanceId) : (s.answer r).find j = s.find j := rfl
@[simp] theorem ids_emit : (s.emit e).ids = s.ids := rfl
@[simp] theorem ids_diag : (s.diag i k).ids = s.ids := rfl
@[simp] theorem ids_answer : (s.answer r).ids = s.ids := rfl

/-! ### controllers -/
@[simp] theorem setReg_config (x : Reg) (v : Byte) : (c.setReg x v).config = c.config := rfl
@[simp] theorem setReg_serial (x : Reg) (v : Byte) : (c.setReg x v).serial = c.serial := rfl
@[simp] theorem setReg_peer (x : Reg) (v : Byte) : (c.setReg x v).peer = c.peer := rfl
@[simp] theorem setReg_bank (x : Reg) (v : Byte) : (c.setReg x v).bank = bankWrite c.bank x v := rfl
theorem reg_eq (x : Reg) : c.reg x = bankRead c.bank x := rfl

/-- A register written reads as the value written. -/
@[simp] theorem bankRead_bankWrite_same (b : RegBank) (x : Reg) (v : Byte) :
    bankRead (bankWrite b x v) x = v := by
  cases x <;> rfl

/-- A write leaves every other register alone. -/
theorem bankRead_bankWrite_other (b : RegBank) {x y : Reg} (h : x ≠ y) (v : Byte) :
    bankRead (bankWrite b x v) y = bankRead b y := by
  cases x <;> cases y <;> first | rfl | exact absurd rfl h

@[simp] theorem reg_setReg_same (x : Reg) (v : Byte) : (c.setReg x v).reg x = v :=
  bankRead_bankWrite_same _ _ _

@[simp] theorem beginTransfer_config : c.beginTransfer.config = c.config := rfl
@[simp] theorem beginTransfer_peer : c.beginTransfer.peer = c.peer := rfl
@[simp] theorem beginTransfer_serial : c.beginTransfer.serial =
    { c.serial with clocksRemaining := (txlen c.serial.baudRate : Int), active := true } := rfl
@[simp] theorem beginTransfer_bank : c.beginTransfer.bank =
    { c.bank with port5 := setTxfl c.bank.port5 } := rfl
@[simp] theorem endTransfer_config : c.endTransfer.config = c.config := rfl
@[simp] theorem endTransfer_peer : c.endTransfer.peer = c.peer := rfl
@[simp] theorem endTransfer_serial : c.endTransfer.serial = { c.serial with active := false } := rfl
@[simp] theorem endTransfer_bank : c.endTransfer.bank =
    { c.bank with port5 := clearTxfl c.bank.port5 } := rfl
@[simp] theorem countDown_config (n : Nat) : (c.countDown n).config = c.config := rfl
@[simp] theorem countDown_peer (n : Nat) : (c.countDown n).peer = c.peer := rfl
@[simp] theorem countDown_bank (n : Nat) : (c.countDown n).bank = c.bank := rfl
@[simp] theorem countDown_serial (n : Nat) : (c.countDown n).serial =
    { c.serial with clocksRemaining := c.serial.clocksRemaining - (n : Int) } := rfl
@[simp] theorem afterReset_config (b : RegBank) : (c.afterReset b).config = c.config := rfl
@[simp] theorem afterReset_peer (b : RegBank) : (c.afterReset b).peer = c.peer := rfl
@[simp] theorem afterReset_bank (b : RegBank) : (c.afterReset b).bank = b := rfl

/-- Boot leaves a controller as RESET would, without a link (R130). -/
theorem boot_eq_afterReset (b : RegBank) (g : InstanceConfig) :
    ((Controller.boot b g).afterReset b) = Controller.boot b g := rfl

end Sys2Proof.Machine
end

