-- ==== Sys2Proof/Laws/Ops.lean ====
section
/-! SUPPORT. What the shared operations do: finding and storing a controller, the addressed command, the NMI
request, Receive and the hand-over of a byte. -/

namespace Sys2Proof.Machine

/-! ### Storing and finding -/

theorem find?_putIn (l : List Controller) (c : Controller) (i : InstanceId) :
    (putIn l c).find? (fun d => d.config.id == i) =
      if c.config.id = i then (l.find? fun d => d.config.id == i).map fun _ => c
      else l.find? fun d => d.config.id == i := by
  induction l with
  | nil => simp [putIn]
  | cons d ds ih =>
    by_cases hd : d.config.id = c.config.id
    · by_cases hi : c.config.id = i
      · simp [putIn, hd, hi]
      · simp [putIn, hd, hi]
    · by_cases hi : c.config.id = i
      · have : d.config.id ≠ i := fun h => hd (h.trans hi.symm)
        simp_all [putIn]
      · by_cases hdi : d.config.id = i <;> simp_all [putIn]

/-- Read after store. -/
theorem find_put (s : State) (c : Controller) (i : InstanceId) :
    (s.put c).find i = if c.config.id = i then (s.find i).map fun _ => c else s.find i :=
  find?_putIn _ _ _

/-- What is found has the identifier looked for. -/
theorem find_id {s : State} {i : InstanceId} {c : Controller} (h : s.find i = some c) :
    c.config.id = i := by
  simpa using List.find?_some h

theorem find_mem {s : State} {i : InstanceId} {c : Controller} (h : s.find i = some c) :
    c ∈ s.controllers :=
  List.mem_of_find?_eq_some h

theorem mem_ids_iff {s : State} {i : InstanceId} : i ∈ s.ids ↔ ∃ c, s.find i = some c := by
  constructor
  · intro h
    cases hf : s.find i with
    | some c => exact ⟨c, rfl⟩
    | none =>
      obtain ⟨c, hc, rfl⟩ := List.mem_map.1 h
      have := List.find?_eq_none.1 hf c hc
      simp at this
  · rintro ⟨c, hc⟩
    exact List.mem_map.2 ⟨c, find_mem hc, find_id hc⟩

theorem find_none_iff {s : State} {i : InstanceId} : s.find i = none ↔ i ∉ s.ids := by
  rw [mem_ids_iff]
  cases s.find i <;> simp

/-- The controller just stored is the one found, if its identifier is among `INSTANCES`. -/
theorem find_put_own {s : State} {c d : Controller} {i : InstanceId} (h : s.find i = some d)
    (hc : c.config.id = i) : (s.put c).find i = some c := by
  simp [find_put, hc, h]

/-- A store leaves every other controller alone. -/
theorem find_put_other {s : State} {c : Controller} {i : InstanceId} (hc : c.config.id ≠ i) :
    (s.put c).find i = s.find i := by
  simp [find_put, hc]

theorem putIn_map_config (l : List Controller) (c d : Controller)
    (h : l.find? (fun e => e.config.id == c.config.id) = some d) (hc : c.config = d.config) :
    (putIn l c).map (·.config) = l.map (·.config) := by
  induction l with
  | nil => rfl
  | cons e es ih =>
    by_cases he : e.config.id = c.config.id
    · have : e = d := by simpa [he] using h
      simp [putIn, hc, this]
    · have h' : es.find? (fun e => e.config.id == c.config.id) = some d := by
        simpa [List.find?_cons, he] using h
      simp [putIn, he, ih h']

/-- Storing an update of the controller found keeps `INSTANCES` and every configuration (R19). -/
theorem put_configs {s : State} {c d : Controller} {i : InstanceId} (h : s.find i = some d)
    (hc : c.config = d.config) :
    (s.put c).controllers.map (·.config) = s.controllers.map (·.config) := by
  have hi := find_id h
  exact putIn_map_config _ _ d (by rw [hc, hi]; exact h) hc

theorem ids_eq_map (s : State) : s.ids = (s.controllers.map (·.config)).map (·.id) := by
  simp [State.ids]

theorem put_ids {s : State} {c d : Controller} {i : InstanceId} (h : s.find i = some d)
    (hc : c.config = d.config) : (s.put c).ids = s.ids := by
  rw [ids_eq_map, ids_eq_map, put_configs h hc]

theorem mem_putIn {l : List Controller} {c d : Controller} (h : d ∈ putIn l c) : d = c ∨ d ∈ l := by
  induction l with
  | nil => simp [putIn] at h
  | cons e es ih =>
    by_cases he : e.config.id = c.config.id
    · rcases List.mem_cons.1 (by simpa [putIn, he] using h) with h | h
      · exact .inl h
      · exact .inr (List.mem_cons_of_mem _ h)
    · rcases List.mem_cons.1 (by simpa [putIn, he] using h) with rfl | h
      · exact .inr (List.mem_cons_self ..)
      · exact (ih h).imp id (List.mem_cons_of_mem _)

/-- A predicate of every controller is kept by storing one that has it. -/
theorem forall_put {s : State} {c : Controller} {P : Controller → Prop}
    (h : ∀ d ∈ s.controllers, P d) (hc : P c) : ∀ d ∈ (s.put c).controllers, P d := by
  intro d hd
  rcases mem_putIn hd with rfl | hd
  · exact hc
  · exact h d hd

theorem putIn_putIn (l : List Controller) (c d : Controller) (h : d.config.id = c.config.id) :
    putIn (putIn l c) d = putIn l d := by
  induction l with
  | nil => rfl
  | cons e es ih =>
    by_cases he : e.config.id = c.config.id
    · simp [putIn, he, h]
    · simp [putIn, he, h, ih]

/-- Two stores of one controller: the later stands. -/
theorem put_put (s : State) (c d : Controller) (h : d.config.id = c.config.id) :
    (s.put c).put d = s.put d := by
  simp [State.put, putIn_putIn _ _ _ h]

/-- A view of controllers that keeps identifiers goes through a store. -/
theorem map_putIn (f : Controller → Controller) (hf : ∀ c, (f c).config.id = c.config.id)
    (l : List Controller) (c : Controller) : (putIn l c).map f = putIn (l.map f) (f c) := by
  induction l with
  | nil => rfl
  | cons d ds ih => by_cases hd : d.config.id = c.config.id <;> simp [putIn, hd, hf, ih]

theorem find?_map (f : Controller → Controller) (hf : ∀ c, (f c).config.id = c.config.id)
    (l : List Controller) (i : InstanceId) :
    (l.map f).find? (fun d => d.config.id == i) = (l.find? fun d => d.config.id == i).map f := by
  induction l with
  | nil => rfl
  | cons d ds ih => by_cases hd : d.config.id = i <;> simp [hf, hd, ih]

/-! ### The addressed command -/

theorem onSelf_some {s : State} {c : Controller} (h : s.find s.self = some c)
    (k : Controller → StepResult) : s.onSelf k = k c := by
  simp [State.onSelf, h]

theorem onSelf_none {s : State} (h : s.find s.self = none) (k : Controller → StepResult) :
    s.onSelf k = .refused .unknownInstance := by
  simp [State.onSelf, h]

/-- An addressed command answers a next state only through its meaning on the controller found. -/
theorem onSelf_next {s t : State} {k : Controller → StepResult} :
    s.onSelf k = .next t ↔ ∃ c, s.find s.self = some c ∧ k c = .next t := by
  cases h : s.find s.self with
  | some c => simp [State.onSelf, h]
  | none => simp [State.onSelf, h]

/-! ### The NMI request (R117) -/

theorem nmiRequest_of_path {s : State} {c : Controller} (h : c.config.nmiPath = true) :
    s.nmiRequest c = s.emit (.nmiRequest c.config.id) := by
  simp [State.nmiRequest, h]

theorem nmiRequest_of_no_path {s : State} {c : Controller} (h : c.config.nmiPath = false) :
    s.nmiRequest c = s.diag c.config.id .dg6 := by
  simp [State.nmiRequest, h]

@[simp] theorem nmiRequest_config (s : State) (c : Controller) : (s.nmiRequest c).config = s.config := by
  unfold State.nmiRequest; split <;> rfl
@[simp] theorem nmiRequest_controllers (s : State) (c : Controller) :
    (s.nmiRequest c).controllers = s.controllers := by
  unfold State.nmiRequest; split <;> rfl
@[simp] theorem nmiRequest_self (s : State) (c : Controller) : (s.nmiRequest c).self = s.self := by
  unfold State.nmiRequest; split <;> rfl
@[simp] theorem nmiRequest_draw (s : State) (c : Controller) : (s.nmiRequest c).draw = s.draw := by
  unfold State.nmiRequest; split <;> rfl
@[simp] theorem nmiRequest_pending (s : State) (c : Controller) :
    (s.nmiRequest c).pending = s.pending := by
  unfold State.nmiRequest; split <;> rfl
@[simp] theorem nmiRequest_results (s : State) (c : Controller) :
    (s.nmiRequest c).results = s.results := by
  unfold State.nmiRequest; split <;> rfl
@[simp] theorem nmiRequest_events (s : State) (c : Controller) : (s.nmiRequest c).events =
    s.events ++ if c.config.nmiPath then [.nmiRequest c.config.id] else [] := by
  unfold State.nmiRequest; split <;> simp_all
@[simp] theorem find_nmiRequest (s : State) (c : Controller) (j : InstanceId) :
    (s.nmiRequest c).find j = s.find j := by
  unfold State.nmiRequest; split <;> rfl

/-! ### Receive (R99) -/

/-- The controller after Receive with RON set. -/
def Controller.received (c : Controller) (b : Byte) : Controller :=
  { c with bank := { c.bank with port4 := b, port5 := setRxrd c.bank.port5 } }

/-- INT survives the setting of RXRD. -/
@[simp] theorem intEnable_setRxrd (v : Byte) : intEnable (setRxrd v) = intEnable v := by
  unfold intEnable setRxrd
  rw [BitVec.getLsbD_or]
  simp

/-- The three cases of Receive. -/
theorem receive_cases (s : State) (c : Controller) (b : Byte) :
    (ron c.bank.port5 = false ∧ s.receive c b = s.diag c.config.id .dg4) ∨
    (ron c.bank.port5 = true ∧ intEnable c.bank.port5 = false ∧
      s.receive c b = s.put (c.received b)) ∨
    (ron c.bank.port5 = true ∧ intEnable c.bank.port5 = true ∧
      s.receive c b = (s.put (c.received b)).nmiRequest (c.received b)) := by
  have hr : (c.setReg .port4 b).setReg .port5 (setRxrd (c.reg .port5)) = c.received b := rfl
  have hi : intEnable ((c.received b).reg .port5) = intEnable c.bank.port5 := intEnable_setRxrd _
  cases h : ron c.bank.port5
  · exact .inl ⟨rfl, by simp [State.receive, reg_eq, bankRead, h]⟩
  · cases h' : intEnable c.bank.port5
    · refine .inr (.inl ⟨rfl, rfl, ?_⟩)
      simp [State.receive, hr, hi, h']
      simp [reg_eq, bankRead, h]
    · refine .inr (.inr ⟨rfl, rfl, ?_⟩)
      simp [State.receive, hr, hi, h']
      simp [reg_eq, bankRead, h]

/-! ### The hand-over of a byte (R97, R98) -/

theorem deliver_next {s t : State} {p : InstanceId} {b : Byte} :
    s.deliver p b = .next t ↔
      ∃ d, s.find p = some d ∧ t = (s.emit (.peerDelivery s.self p b)).receive d b := by
  cases h : s.find p with
  | some d => simp [State.deliver, h, eq_comm]
  | none => simp [State.deliver, h]

/-- The cases of one advance that answers a next state: idle, counting, completed with no peer, completed
with a delivery. -/
theorem advanceBy_next {s t : State} {n : Nat} (h : s.advanceBy n = .next t) :
    ∃ c, s.find s.self = some c ∧
      ((c.serial.active = false ∧ t = s) ∨
       (c.serial.active = true ∧ 0 < c.serial.clocksRemaining - n ∧ t = s.put (c.countDown n)) ∨
       (c.serial.active = true ∧ c.serial.clocksRemaining - n ≤ 0 ∧ c.peer = none ∧
          t = s.put (c.countDown n).endTransfer) ∨
       (c.serial.active = true ∧ c.serial.clocksRemaining - n ≤ 0 ∧
          ∃ p d, c.peer = some p ∧ (s.put (c.countDown n).endTransfer).find p = some d ∧
            t = ((s.put (c.countDown n).endTransfer).emit
              (.peerDelivery s.self p c.serial.sendBuffer)).receive d c.serial.sendBuffer)) := by
  obtain ⟨c, hc, hk⟩ := onSelf_next.1 h
  refine ⟨c, hc, ?_⟩
  cases ha : c.serial.active
  · refine .inl ⟨rfl, ?_⟩
    simpa [ha, eq_comm] using hk
  · by_cases hn : c.serial.clocksRemaining - n ≤ 0
    · cases hp : c.peer with
      | none =>
        refine .inr (.inr (.inl ⟨rfl, hn, rfl, ?_⟩))
        rw [if_pos ha, if_pos (by simpa using hn)] at hk
        simpa [State.completeTransfer, hp, eq_comm] using hk
      | some p =>
        refine .inr (.inr (.inr ⟨rfl, hn, p, ?_⟩))
        rw [if_pos ha, if_pos (by simpa using hn)] at hk
        simp only [State.completeTransfer, countDown_peer, hp] at hk
        obtain ⟨d, hd, ht⟩ := deliver_next.1 hk
        exact ⟨d, rfl, hd, ht⟩
    · refine .inr (.inl ⟨rfl, by omega, ?_⟩)
      rw [if_pos ha, if_neg (by simpa using hn)] at hk
      simpa [eq_comm] using hk

end Sys2Proof.Machine
end

