-- ==== Sys2Proof/Laws/Ran.lean ====
section
/-! SUPPORT. How the basic operations make up the effect of a command: `Ran` of a store, and of one more
output. -/

namespace Sys2Proof.Machine

variable {s t : State} {c c' d d' : Controller} {p : InstanceId} {rs : List CommandResult} {es : List Event}

theorem InputsKept.refl (s : State) : InputsKept s s := ⟨rfl, rfl, rfl, rfl, rfl⟩

theorem InputsKept.trans {u : State} (h : InputsKept s t) (h' : InputsKept t u) : InputsKept s u :=
  ⟨h'.config.trans h.config, h'.configs.trans h.configs, h'.pending.trans h.pending,
    h'.self.trans h.self, h'.draw.trans h.draw⟩

theorem InputsKept.emit (h : InputsKept s t) (e : Event) : InputsKept s (t.emit e) :=
  ⟨h.config, h.configs, h.pending, h.self, h.draw⟩

theorem InputsKept.diag (h : InputsKept s t) (i : InstanceId) (k : DiagCode) : InputsKept s (t.diag i k) :=
  ⟨h.config, h.configs, h.pending, h.self, h.draw⟩

theorem InputsKept.answer (h : InputsKept s t) (r : CommandResult) : InputsKept s (t.answer r) :=
  ⟨h.config, h.configs, h.pending, h.self, h.draw⟩

theorem InputsKept.put {i : InstanceId} (h : s.find i = some c) (hc : c'.config = c.config) :
    InputsKept s (s.put c') :=
  ⟨rfl, put_configs h hc, rfl, rfl, rfl⟩

theorem InputsKept.nmiRequest (h : InputsKept s t) (c : Controller) : InputsKept s (t.nmiRequest c) := by
  unfold State.nmiRequest
  split
  · exact h.emit _
  · exact h.diag _ _

theorem InputsKept.ids (h : InputsKept s t) : t.ids = s.ids := by
  rw [ids_eq_map, ids_eq_map, h.configs]

theorem find?_of_pairwise {l : List Controller}
    (h : (l.map (·.config.id)).Pairwise fun a b => a.toNat < b.toNat) (hc : c ∈ l) :
    l.find? (fun e => e.config.id == c.config.id) = some c := by
  induction l with
  | nil => simp at hc
  | cons d ds ih =>
    obtain ⟨h1, h2⟩ := List.pairwise_cons.1 h
    rcases List.mem_cons.1 hc with rfl | hm
    · simp
    · have hne : d.config.id ≠ c.config.id := fun he => by
        have hlt := h1 c.config.id (List.mem_map_of_mem hm)
        simp only [he] at hlt
        omega
      simpa [List.find?_cons, hne] using ih h2 hm

/-- With rising identifiers every controller is the one found under its identifier. -/
theorem find_of_mem (h : s.idsRising) (hc : c ∈ s.controllers) : s.find c.config.id = some c :=
  find?_of_pairwise h hc

/-- A command that changes nothing. -/
theorem Ran.refl (h : s.find s.self = some c) : Ran s s c [] [] :=
  ⟨h, fun _ _ => rfl, .refl s, by simp, by simp⟩

/-- A command that only stores an update of the addressed controller. -/
theorem Ran.put (h : s.find s.self = some c) (hc : c'.config = c.config) : Ran s (s.put c') c' [] [] := by
  have hi : c'.config.id = s.self := by rw [hc]; exact find_id h
  exact ⟨find_put_own h hi, fun j hj => find_put_other (by rw [hi]; exact hj.symm), .put h hc, by simp, by simp⟩

theorem Ran.emit (h : Ran s t c rs es) (e : Event) : Ran s (t.emit e) c rs (es ++ [e]) :=
  ⟨h.own, h.others, h.kept.emit e, h.results, by simp [h.events]⟩

theorem Ran.diag (h : Ran s t c rs es) (i : InstanceId) (k : DiagCode) : Ran s (t.diag i k) c rs es :=
  ⟨h.own, h.others, h.kept.diag i k, h.results, h.events⟩

theorem Ran.answer (h : Ran s t c rs es) (r : CommandResult) : Ran s (t.answer r) c (rs ++ [r]) es :=
  ⟨h.own, h.others, h.kept.answer r, by simp [h.results], h.events⟩

/-- A command's NMI request, by the controller's own path (R117). -/
theorem Ran.nmiRequest (h : Ran s t c rs es) (d : Controller) :
    Ran s (t.nmiRequest d) c rs (es ++ nmiEvents d) := by
  unfold State.nmiRequest nmiEvents
  split
  · exact h.emit _
  · simpa using h.diag _ _

/-- A store of another controller after the addressed one. -/
theorem Ran.putPeer (h : Ran s t c rs es) (hp : p ≠ s.self) (hd : s.find p = some d)
    (hc : d'.config = d.config) : RanBoth s (t.put d') c p d' rs es := by
  have hi : d'.config.id = p := by rw [hc]; exact find_id hd
  have hd' : t.find p = some d := by rw [h.others p hp]; exact hd
  refine ⟨?_, find_put_own hd' hi, fun j hj hjp => ?_, h.kept.trans (.put hd' hc), h.results, h.events⟩
  · rw [find_put_other (by rw [hi]; exact hp)]; exact h.own
  · rw [find_put_other (by rw [hi]; exact hjp.symm)]; exact h.others j hj

/-- The peer of a command that leaves it alone. -/
theorem Ran.both (h : Ran s t c rs es) (hp : p ≠ s.self) (hd : s.find p = some d) :
    RanBoth s t c p d rs es :=
  ⟨h.own, by rw [h.others p hp]; exact hd, fun j hj _ => h.others j hj, h.kept, h.results, h.events⟩

theorem RanBoth.diag (h : RanBoth s t c p d rs es) (i : InstanceId) (k : DiagCode) :
    RanBoth s (t.diag i k) c p d rs es :=
  ⟨h.own, h.peer, h.others, h.kept.diag i k, h.results, h.events⟩

theorem RanBoth.emit (h : RanBoth s t c p d rs es) (e : Event) :
    RanBoth s (t.emit e) c p d rs (es ++ [e]) :=
  ⟨h.own, h.peer, h.others, h.kept.emit e, h.results, by simp [h.events]⟩

theorem RanBoth.nmiRequest (h : RanBoth s t c p d rs es) (e : Controller) :
    RanBoth s (t.nmiRequest e) c p d rs (es ++ nmiEvents e) := by
  unfold State.nmiRequest nmiEvents
  split
  · exact h.emit _
  · simpa using h.diag _ _

end Sys2Proof.Machine
end

