-- ==== Sys2Proof/Laws/Exec.lean ====
section
/-! SUPPORT. What a command can do, said once: the addressed controller after it, and the one case in which
another controller changes. -/

namespace Sys2Proof.Machine

/-- The addressed controller after a command that answers a next state. A delivery to itself, which no run
reaches (R37), is kept apart in `exec_cases`. -/
def ownEffect (i : Instr) (s : State) (c : Controller) : Controller :=
  match i with
  | .inP0 | .inP1 | .inP2 | .inP3 | .inP5 => c
  | .inP4 => c.setReg .port5 (clearRxrd (c.reg .port5))
  | .inNullLo _ | .inVcnt _ | .inHcnt _ | .inVdata _ | .inVstat _ => c
  | .inC0 | .inDC | .inC1 | .inDD | .inNullHi _ => c
  | .outP0 v => c.setReg .port0 v
  | .outP1 v => c.setReg .port1 v
  | .outP2 v => c.setReg .port2 v
  | .outP3 v =>
    if c.serial.active then c
    else if ton (c.reg .port5) || ron (c.reg .port5) then (c.captureByte v).beginTransfer
    else c.captureByte v
  | .outP4 _ => c
  | .outP5 v => c.writeSerialControl v
  | .outP6 v => c.setReg .port6 v
  | .outIoctl _ v => c.writeIoctl s.config.hcTriggerMask v
  | .outMemctl _ _ | .outPsg _ _ | .outVdata _ _ | .outVctl _ _ | .outNullHi _ _ => c
  | .advance n =>
    if c.serial.active then
      if c.serial.clocksRemaining ≤ (n.toNat : Int) then (c.countDown n.toNat).endTransfer
      else c.countDown n.toNat
    else c
  | .receive b => if ron (c.reg .port5) then c.received b else c
  | .reset => c.afterReset s.config.resetValue
  | .link other => if other = s.self then c else { c with peer := some other }
  | .unlink => { c with peer := none }
  | .save => c
  | .load b0 b1 => (c.setReg .port3F b0).setReg .port3FHC b1
  | .baud sel => { c with serial := { c.serial with baudRate := baudRateOf sel } }
  | .reserved9 _ | .reservedAB _ | .reservedCF _ => c

/-- A command keeps the addressed controller's configuration (R19). -/
@[simp] theorem ownEffect_config (i : Instr) (s : State) (c : Controller) :
    (ownEffect i s c).config = c.config := by
  cases i with
  | outP3 v => simp only [ownEffect]; split <;> [rfl; (split <;> rfl)]
  | advance n => simp only [ownEffect]; split <;> [(split <;> rfl); rfl]
  | receive b => simp only [ownEffect]; split <;> rfl
  | link o => simp only [ownEffect]; split <;> rfl
  | _ => rfl

/-- A delivery of the addressed controller in an advance of `n` clocks: its byte goes to `d`, its peer. -/
structure Delivery (s : State) (c : Controller) (n : BitVec 16) (d : Controller) : Prop where
  active : c.serial.active = true
  reached : c.serial.clocksRemaining ≤ (n.toNat : Int)
  peer : c.peer = some d.config.id
  found : s.find d.config.id = some d
  enabled : ron d.bank.port5 = true

/-- The cases of a command that answers a next state: it changes the addressed controller alone, or it also
delivers a byte to an enabled peer, or (in no run) to itself. -/
theorem exec_cases {i : Instr} {s t : State} (h : exec i s = .next t) :
    ∃ c, s.find s.self = some c ∧
      ((∃ rs es, Ran s t (ownEffect i s c) rs es) ∨
       (∃ n d rs es, i = .advance n ∧ Delivery s c n d ∧ d.config.id ≠ s.self ∧
          RanBoth s t (ownEffect i s c) d.config.id (d.received c.serial.sendBuffer) rs es) ∨
       (∃ n rs es, i = .advance n ∧ Delivery s c n c ∧
          Ran s t ((ownEffect i s c).received c.serial.sendBuffer) rs es)) := by
  cases i with
  | inP1 =>
    obtain ⟨c, hc, hk⟩ := onSelf_next.1 h
    refine ⟨c, hc, .inl ?_⟩
    split at hk
    · obtain rfl := (Host.Outcome.next.inj hk).symm
      exact ⟨_, _, ((Ran.refl hc).emit _).answer _⟩
    · split at hk
      · obtain rfl := (Host.Outcome.next.inj hk).symm
        exact ⟨_, _, ((Ran.refl hc).emit _).answer _⟩
      · cases hk
  | inP4 =>
    obtain ⟨c, hc, hk⟩ := onSelf_next.1 h
    obtain rfl := (Host.Outcome.next.inj hk).symm
    exact ⟨c, hc, .inl ⟨_, _, (Ran.put (c' := ownEffect .inP4 s c) hc rfl).answer _⟩⟩
  | inP2 | inP3 | inP5 | save =>
    obtain ⟨c, hc, hk⟩ := onSelf_next.1 h
    obtain rfl := (Host.Outcome.next.inj hk).symm
    exact ⟨c, hc, .inl ⟨_, _, (Ran.refl hc).answer _⟩⟩
  | inP0 | inC0 | inDC | inC1 | inDD =>
    obtain ⟨c, hc, hk⟩ := onSelf_next.1 h
    obtain rfl := (Host.Outcome.next.inj hk).symm
    exact ⟨c, hc, .inl ⟨_, _, ((Ran.refl hc).emit _).answer _⟩⟩
  | inVcnt a | inHcnt a | inVdata a | inVstat a =>
    obtain ⟨c, hc, hk⟩ := onSelf_next.1 h
    obtain rfl := (Host.Outcome.next.inj hk).symm
    exact ⟨c, hc, .inl ⟨_, _, ((Ran.refl hc).emit _).answer _⟩⟩
  | inNullLo a | inNullHi a =>
    obtain ⟨c, hc, hk⟩ := onSelf_next.1 h
    obtain rfl := (Host.Outcome.next.inj hk).symm
    exact ⟨c, hc, .inl ⟨_, _, ((Ran.refl hc).diag _ _).answer _⟩⟩
  | outP0 v | outP1 v | outP5 v | baud v =>
    obtain ⟨c, hc, hk⟩ := onSelf_next.1 h
    obtain rfl := (Host.Outcome.next.inj hk).symm
    exact ⟨c, hc, .inl ⟨_, _, Ran.put hc rfl⟩⟩
  | unlink | reset =>
    obtain ⟨c, hc, hk⟩ := onSelf_next.1 h
    obtain rfl := (Host.Outcome.next.inj hk).symm
    exact ⟨c, hc, .inl ⟨_, _, Ran.put hc rfl⟩⟩
  | outP2 v =>
    obtain ⟨c, hc, hk⟩ := onSelf_next.1 h
    have hr := Ran.put (c' := c.setReg .port2 v) hc rfl
    dsimp only at hk
    split at hk
    · obtain rfl := (Host.Outcome.next.inj hk).symm
      exact ⟨c, hc, .inl ⟨_, _, hr.nmiRequest _⟩⟩
    · obtain rfl := (Host.Outcome.next.inj hk).symm
      exact ⟨c, hc, .inl ⟨_, _, hr⟩⟩
  | outP3 v =>
    obtain ⟨c, hc, hk⟩ := onSelf_next.1 h
    refine ⟨c, hc, .inl ?_⟩
    simp only [ownEffect]
    by_cases ha : c.serial.active = true
    · rw [if_pos ha] at hk ⊢
      obtain rfl := (Host.Outcome.next.inj hk).symm
      exact ⟨_, _, (Ran.refl hc).diag _ _⟩
    · rw [if_neg ha] at hk ⊢
      by_cases hx : (ton (c.reg .port5) || ron (c.reg .port5)) = true
      · rw [if_pos hx] at hk ⊢
        obtain rfl := (Host.Outcome.next.inj hk).symm
        exact ⟨_, _, Ran.put hc rfl⟩
      · rw [if_neg hx] at hk ⊢
        obtain rfl := (Host.Outcome.next.inj hk).symm
        exact ⟨_, _, Ran.put hc rfl⟩
  | outP4 v =>
    obtain ⟨c, hc, hk⟩ := onSelf_next.1 h
    obtain rfl := (Host.Outcome.next.inj hk).symm
    exact ⟨c, hc, .inl ⟨_, _, Ran.refl hc⟩⟩
  | outP6 v =>
    obtain ⟨c, hc, hk⟩ := onSelf_next.1 h
    obtain rfl := (Host.Outcome.next.inj hk).symm
    exact ⟨c, hc, .inl ⟨_, _, (Ran.put (c' := c.setReg .port6 v) hc rfl).emit _⟩⟩
  | outMemctl a v | outPsg a v | outVdata a v | outVctl a v =>
    obtain ⟨c, hc, hk⟩ := onSelf_next.1 h
    obtain rfl := (Host.Outcome.next.inj hk).symm
    exact ⟨c, hc, .inl ⟨_, _, (Ran.refl hc).emit _⟩⟩
  | outNullHi a v =>
    obtain ⟨c, hc, hk⟩ := onSelf_next.1 h
    obtain rfl := (Host.Outcome.next.inj hk).symm
    exact ⟨c, hc, .inl ⟨_, _, (Ran.refl hc).diag _ _⟩⟩
  | outIoctl a v =>
    obtain ⟨c, hc, hk⟩ := onSelf_next.1 h
    have hr := Ran.put (c' := c.writeIoctl s.config.hcTriggerMask v) hc rfl
    dsimp only at hk
    split at hk
    · obtain rfl := (Host.Outcome.next.inj hk).symm
      exact ⟨c, hc, .inl ⟨_, _, hr⟩⟩
    · obtain rfl := (Host.Outcome.next.inj hk).symm
      exact ⟨c, hc, .inl ⟨_, _, hr.emit _⟩⟩
  | load b0 b1 =>
    obtain ⟨c, hc, hk⟩ := onSelf_next.1 h
    split at hk
    · cases hk
    · obtain rfl := (Host.Outcome.next.inj hk).symm
      exact ⟨c, hc, .inl ⟨_, _, Ran.put hc rfl⟩⟩
  | link other =>
    obtain ⟨c, hc, hk⟩ := onSelf_next.1 h
    refine ⟨c, hc, .inl ?_⟩
    simp only [ownEffect]
    by_cases ho : other = s.self
    · rw [if_pos ho] at hk ⊢
      obtain rfl := (Host.Outcome.next.inj hk).symm
      exact ⟨_, _, (Ran.refl hc).diag _ _⟩
    · rw [if_neg ho] at hk ⊢
      split at hk
      · obtain rfl := (Host.Outcome.next.inj hk).symm
        exact ⟨_, _, Ran.put hc rfl⟩
      · cases hk
  | receive b =>
    obtain ⟨c, hc, hk⟩ := onSelf_next.1 h
    obtain rfl := (Host.Outcome.next.inj hk).symm
    refine ⟨c, hc, .inl ?_⟩
    rcases receive_cases s c b with ⟨h5, hq⟩ | ⟨h5, _, hq⟩ | ⟨h5, _, hq⟩
    · simp only [ownEffect, reg_eq, bankRead, h5, hq]
      exact ⟨_, _, (Ran.refl hc).diag _ _⟩
    · simp only [ownEffect, reg_eq, bankRead, h5, hq, if_true]
      exact ⟨_, _, Ran.put hc rfl⟩
    · simp only [ownEffect, reg_eq, bankRead, h5, hq, if_true]
      exact ⟨_, _, (Ran.put (c' := c.received b) hc rfl).nmiRequest _⟩
  | advance n =>
    obtain ⟨c, hc, hk⟩ := advanceBy_next h
    refine ⟨c, hc, ?_⟩
    simp only [elapsed] at hk
    rcases hk with ⟨ha, rfl⟩ | ⟨ha, hn, rfl⟩ | ⟨ha, hn, -, rfl⟩ | ⟨ha, hn, p, d, hp, hd, rfl⟩
    · refine .inl ⟨[], [], ?_⟩
      simp only [ownEffect, ha]
      exact Ran.refl hc
    · refine .inl ⟨[], [], ?_⟩
      simp only [ownEffect, ha, if_true, show ¬ c.serial.clocksRemaining ≤ (n.toNat : Int) by omega, if_false]
      exact Ran.put hc rfl
    · refine .inl ⟨[], [], ?_⟩
      simp only [ownEffect, ha, if_true, show c.serial.clocksRemaining ≤ (n.toNat : Int) by omega]
      exact Ran.put hc rfl
    · have hle : c.serial.clocksRemaining ≤ (n.toNat : Int) := by omega
      have he : ownEffect (.advance n) s c = (c.countDown n.toNat).endTransfer := by
        simp only [ownEffect, ha, if_true, hle]
      have hr : Ran s (s.put (c.countDown n.toNat).endTransfer) (c.countDown n.toNat).endTransfer [] [] :=
        Ran.put hc rfl
      have hr' := hr.emit (.peerDelivery s.self p c.serial.sendBuffer)
      have hdi := find_id hd
      rw [he]
      by_cases hps : p = s.self
      · have hdc : d = (c.countDown n.toNat).endTransfer := by
          have := hr.own
          rw [← hps, hd] at this
          exact Option.some.inj this
        have hu (f : Controller) (hf : f.config = c.config) :
            Ran s (((s.put (c.countDown n.toNat).endTransfer).emit
              (.peerDelivery s.self p c.serial.sendBuffer)).put f) f
              [] [.peerDelivery s.self p c.serial.sendBuffer] := by
          have e : ((s.put (c.countDown n.toNat).endTransfer).emit
              (.peerDelivery s.self p c.serial.sendBuffer)).put f =
              (s.put f).emit (.peerDelivery s.self p c.serial.sendBuffer) := by
            have := put_put s (c.countDown n.toNat).endTransfer f (congrArg InstanceConfig.id hf)
            exact congrArg (fun u : State => u.emit (.peerDelivery s.self p c.serial.sendBuffer)) this
          rw [e]
          exact (Ran.put hc hf).emit _
        have hron : ron (clearTxfl c.bank.port5) = ron c.bank.port5 := ron_clearTxfl _
        have hdel (h5 : ron c.bank.port5 = true) : Delivery s c n c :=
          ⟨ha, hle, by rw [hp, hps, find_id hc], by rw [find_id hc]; exact hc, h5⟩
        subst hdc
        rcases receive_cases ((s.put (c.countDown n.toNat).endTransfer).emit
          (.peerDelivery s.self p c.serial.sendBuffer)) (c.countDown n.toNat).endTransfer
          c.serial.sendBuffer with ⟨h5, hq⟩ | ⟨h5, _, hq⟩ | ⟨h5, _, hq⟩
        · rw [hq]
          exact .inl ⟨_, _, hr'.diag _ _⟩
        · rw [hq]
          exact .inr (.inr ⟨n, _, _, rfl, hdel (hron.symm.trans h5), hu _ rfl⟩)
        · rw [hq]
          exact .inr (.inr ⟨n, _, _, rfl, hdel (hron.symm.trans h5),
            (hu ((c.countDown n.toNat).endTransfer.received c.serial.sendBuffer) rfl).nmiRequest _⟩)
      · have hd' : s.find p = some d := by rw [← hr.others p hps]; exact hd
        subst hdi
        rcases receive_cases ((s.put (c.countDown n.toNat).endTransfer).emit
          (.peerDelivery s.self d.config.id c.serial.sendBuffer)) d c.serial.sendBuffer with
          ⟨h5, hq⟩ | ⟨h5, _, hq⟩ | ⟨h5, _, hq⟩
        · rw [hq]
          exact .inl ⟨_, _, hr'.diag _ _⟩
        · rw [hq]
          exact .inr (.inl ⟨n, d, _, _, rfl, ⟨ha, hle, hp, hd', h5⟩, hps,
            hr'.putPeer (d' := d.received c.serial.sendBuffer) hps hd' rfl⟩)
        · rw [hq]
          exact .inr (.inl ⟨n, d, _, _, rfl, ⟨ha, hle, hp, hd', h5⟩, hps,
            (hr'.putPeer (d' := d.received c.serial.sendBuffer) hps hd' rfl).nmiRequest _⟩)
  | reserved9 r | reservedAB r | reservedCF r => cases h

/-- A delivery in the terms of the claims. -/
theorem Delivery.to {s : State} {c d : Controller} {n : BitVec 16} {j : InstanceId} {b : Byte}
    (h : Delivery s c n d) (hc : s.find s.self = some c) (hp : c.peer = some j)
    (hb : c.serial.sendBuffer = b) : DeliversTo s n.toNat j b :=
  ⟨c, hc, h.active, h.reached, hp, hb⟩

/-- What becomes of any one controller in a command: the addressed one has its own effect, another is as it
was, or it is the receiver of a delivery. -/
theorem controller_cases {i : Instr} {s t : State} {j : InstanceId} {c d : Controller}
    (h : exec i s = .next t) (hc : s.find j = some c) (hd : t.find j = some d) :
    (j = s.self ∧ d = ownEffect i s c) ∨ (j ≠ s.self ∧ d = c) ∨
    (∃ n e, i = .advance n ∧ s.find s.self = some e ∧ Delivery s e n c ∧ e.peer = some j ∧
      ((j ≠ s.self ∧ d = c.received e.serial.sendBuffer) ∨
       (j = s.self ∧ e = c ∧ d = (ownEffect i s c).received c.serial.sendBuffer))) := by
  obtain ⟨e, he, ⟨_, _, hr⟩ | ⟨n, f, _, _, rfl, hde, hf, hr⟩ | ⟨n, _, _, rfl, hde, hr⟩⟩ := exec_cases h
  · by_cases hj : j = s.self
    · subst hj
      obtain rfl : e = c := Option.some.inj (he.symm.trans hc)
      exact .inl ⟨rfl, Option.some.inj (hd.symm.trans hr.own)⟩
    · exact .inr (.inl ⟨hj, Option.some.inj (hd.symm.trans ((hr.others j hj).trans hc))⟩)
  · by_cases hj : j = s.self
    · subst hj
      obtain rfl : e = c := Option.some.inj (he.symm.trans hc)
      exact .inl ⟨rfl, Option.some.inj (hd.symm.trans hr.own)⟩
    · by_cases hjf : j = f.config.id
      · subst hjf
        obtain rfl : f = c := Option.some.inj (hde.found.symm.trans hc)
        exact .inr (.inr ⟨n, e, rfl, he, hde, hde.peer, .inl ⟨hj, Option.some.inj (hd.symm.trans hr.peer)⟩⟩)
      · exact .inr (.inl ⟨hj, Option.some.inj (hd.symm.trans ((hr.others j hj hjf).trans hc))⟩)
  · by_cases hj : j = s.self
    · subst hj
      obtain rfl : e = c := Option.some.inj (he.symm.trans hc)
      exact .inr (.inr ⟨n, e, rfl, he, hde, by rw [hde.peer, find_id he],
        .inr ⟨rfl, rfl, Option.some.inj (hd.symm.trans hr.own)⟩⟩)
    · exact .inr (.inl ⟨hj, Option.some.inj (hd.symm.trans ((hr.others j hj).trans hc))⟩)

end Sys2Proof.Machine
end

