-- ==== Sys2Proof/Laws/PerInstr.lean ====
section
/-! SUPPORT. A rule of the encoding stated of every command: the word of a command has a command code of its
row (R53, R58). -/

namespace Sys2Proof.Laws.CommandCode

open Sys2Proof

/-- The command codes of a command's row (R53, R58). -/
def codes : Instr → List (BitVec 4)
  | .inP0 | .inP1 | .inP2 | .inP3 | .inP4 | .inP5 => [0x0]
  | .inNullLo _ | .inVcnt _ | .inHcnt _ | .inVdata _ | .inVstat _ | .inC0 => [0x0]
  | .inDC | .inC1 | .inDD | .inNullHi _ => [0x0]
  | .outP0 _ | .outP1 _ | .outP2 _ | .outP3 _ | .outP4 _ | .outP5 _ => [0x1]
  | .outP6 _ | .outMemctl _ _ | .outIoctl _ _ | .outPsg _ _ | .outVdata _ _ | .outVctl _ _ => [0x1]
  | .outNullHi _ _ => [0x1]
  | .advance _ => [0x2]
  | .receive _ => [0x3]
  | .reset => [0x4]
  | .link _ | .unlink => [0x5]
  | .save => [0x6]
  | .load _ _ => [0x7]
  | .baud _ => [0x8]
  | .reserved9 _ => [0x9]
  | .reservedAB _ => [0xA, 0xB]
  | .reservedCF _ => [0xC, 0xD, 0xE, 0xF]

/-- The command's word carries one of its row's codes in bits 19:16. -/
def Statement (i : Instr) : Prop := fieldCmd (encode i) ∈ codes i

theorem statement_of {i : Instr} (h : (encodeFields i).1 ∈ codes i) : Statement i := by
  unfold Statement encode
  rwa [fieldCmd_packWord]

theorem inP0 : Statement .inP0 := statement_of (List.mem_singleton.2 rfl)
theorem inP1 : Statement .inP1 := statement_of (List.mem_singleton.2 rfl)
theorem inP2 : Statement .inP2 := statement_of (List.mem_singleton.2 rfl)
theorem inP3 : Statement .inP3 := statement_of (List.mem_singleton.2 rfl)
theorem inP4 : Statement .inP4 := statement_of (List.mem_singleton.2 rfl)
theorem inP5 : Statement .inP5 := statement_of (List.mem_singleton.2 rfl)
theorem inNullLo (port : Byte) : Statement (.inNullLo port) := statement_of (List.mem_singleton.2 rfl)
theorem inVcnt (port : Byte) : Statement (.inVcnt port) := statement_of (List.mem_singleton.2 rfl)
theorem inHcnt (port : Byte) : Statement (.inHcnt port) := statement_of (List.mem_singleton.2 rfl)
theorem inVdata (port : Byte) : Statement (.inVdata port) := statement_of (List.mem_singleton.2 rfl)
theorem inVstat (port : Byte) : Statement (.inVstat port) := statement_of (List.mem_singleton.2 rfl)
theorem inC0 : Statement .inC0 := statement_of (List.mem_singleton.2 rfl)
theorem inDC : Statement .inDC := statement_of (List.mem_singleton.2 rfl)
theorem inC1 : Statement .inC1 := statement_of (List.mem_singleton.2 rfl)
theorem inDD : Statement .inDD := statement_of (List.mem_singleton.2 rfl)
theorem inNullHi (port : Byte) : Statement (.inNullHi port) := statement_of (List.mem_singleton.2 rfl)
theorem outP0 (value : Byte) : Statement (.outP0 value) := statement_of (List.mem_singleton.2 rfl)
theorem outP1 (value : Byte) : Statement (.outP1 value) := statement_of (List.mem_singleton.2 rfl)
theorem outP2 (value : Byte) : Statement (.outP2 value) := statement_of (List.mem_singleton.2 rfl)
theorem outP3 (value : Byte) : Statement (.outP3 value) := statement_of (List.mem_singleton.2 rfl)
theorem outP4 (value : Byte) : Statement (.outP4 value) := statement_of (List.mem_singleton.2 rfl)
theorem outP5 (value : Byte) : Statement (.outP5 value) := statement_of (List.mem_singleton.2 rfl)
theorem outP6 (value : Byte) : Statement (.outP6 value) := statement_of (List.mem_singleton.2 rfl)
theorem outMemctl (port value : Byte) : Statement (.outMemctl port value) := statement_of (List.mem_singleton.2 rfl)
theorem outIoctl (port value : Byte) : Statement (.outIoctl port value) := statement_of (List.mem_singleton.2 rfl)
theorem outPsg (port value : Byte) : Statement (.outPsg port value) := statement_of (List.mem_singleton.2 rfl)
theorem outVdata (port value : Byte) : Statement (.outVdata port value) := statement_of (List.mem_singleton.2 rfl)
theorem outVctl (port value : Byte) : Statement (.outVctl port value) := statement_of (List.mem_singleton.2 rfl)
theorem outNullHi (port value : Byte) : Statement (.outNullHi port value) := statement_of (List.mem_singleton.2 rfl)
theorem advance (n : BitVec 16) : Statement (.advance n) := statement_of (List.mem_singleton.2 rfl)
theorem receive (b : Byte) : Statement (.receive b) := statement_of (List.mem_singleton.2 rfl)
theorem reset : Statement .reset := statement_of (List.mem_singleton.2 rfl)
theorem link (other : InstanceId) : Statement (.link other) := statement_of (List.mem_singleton.2 rfl)
theorem unlink : Statement .unlink := statement_of (List.mem_singleton.2 rfl)
theorem save : Statement .save := statement_of (List.mem_singleton.2 rfl)
theorem load (b0 b1 : Byte) : Statement (.load b0 b1) := statement_of (List.mem_singleton.2 rfl)
theorem baud (selector : BitVec 2) : Statement (.baud selector) := statement_of (List.mem_singleton.2 rfl)
theorem reserved9 (rest : BitVec 16) : Statement (.reserved9 rest) := statement_of (List.mem_singleton.2 rfl)
theorem reservedAB (rest : BitVec 17) : Statement (.reservedAB rest) :=
  have h : ∀ x : BitVec 1, (0b101 : BitVec 3) ++ x ∈ ([0xA, 0xB] : List (BitVec 4)) := by decide
  statement_of (h _)
theorem reservedCF (rest : BitVec 18) : Statement (.reservedCF rest) :=
  have h : ∀ x : BitVec 2, (0b11 : BitVec 2) ++ x ∈ ([0xC, 0xD, 0xE, 0xF] : List (BitVec 4)) := by decide
  statement_of (h _)

end Sys2Proof.Laws.CommandCode
end

