-- ==== Sys2Proof/Tests/Slice0.lean ====
section
/-! SUPPORT. The model's own tests: ill-formed terms that the check refuses, words decoded against the spec's
encoding, one step of every instruction against the vectors of 95_test_vectors.md, and a witness for the
hypotheses of every statement. -/

namespace Sys2Proof.Tests

open Sys2Proof Sys2Proof.Machine

/-! ### Small states -/

/-- A controller as boot leaves it, with the reference values (95_test_vectors.md, opening). -/
def fresh (i : InstanceId) : Controller :=
  Controller.boot Config.referenceResetValue { id := i, region := .standard, nmiPath := true }

/-- With registers written. -/
def withRegs (c : Controller) (l : List (Reg × Byte)) : Controller :=
  l.foldl (fun d p => d.setReg p.1 p.2) c

/-- In the Japan region. -/
def japan (c : Controller) : Controller := { c with config := { c.config with region := .japanVariant } }

/-- With no interrupt path. -/
def pathless (c : Controller) : Controller := { c with config := { c.config with nmiPath := false } }

/-- With a link. -/
def linkedTo (c : Controller) (p : InstanceId) : Controller := { c with peer := some p }

/-- In a transfer of `b` at 4800 baud with `n` clocks to go, Port5 = `p5`. -/
def sending (c : Controller) (b : Byte) (n : Int) (p5 : Byte) : Controller :=
  { withRegs c [(.port3, b), (.port5, p5)] with
    serial := { active := true, clocksRemaining := n, baudRate := .b4800, sendBuffer := b } }

/-- The system of two controllers, addressed to instance 0 with a draw. -/
def sys (a b : Controller) (draw : Byte := 0) : State :=
  { State.reset with controllers := [a, b], draw := draw }

/-- The system with instance 0 as given and instance 1 fresh. -/
def one (a : Controller) (draw : Byte := 0) : State := sys a (fresh 1) draw

/-! ### What a command leaves -/

/-- The next state, if there is one. -/
def nextOf (r : StepResult) : Option State :=
  match r with
  | .next s => some s
  | .fault _ => none
  | .refused _ => none

/-- The refusal, if there is one. -/
def refusalOf (r : StepResult) : Option Refusal :=
  match r with
  | .next _ => none
  | .fault _ => none
  | .refused x => some x

/-- A controller after a command. -/
def ctlAfter (i : Instr) (s : State) (j : InstanceId) : Option Controller :=
  (nextOf (exec i s)).bind (·.find j)

/-- A register after a command. -/
def regAfter (i : Instr) (s : State) (j : InstanceId) (r : Reg) : Option Byte :=
  (ctlAfter i s j).map (·.reg r)

/-- The results after a command. -/
def resultsAfter (i : Instr) (s : State) : Option (List CommandResult) :=
  (nextOf (exec i s)).map (·.results)

/-- The events after a command. -/
def eventsAfter (i : Instr) (s : State) : Option (List Event) :=
  (nextOf (exec i s)).map (·.events)

/-! ### WellFormed: an ill-formed term for each check (R55, R56, third column) -/

theorem test_wf_inNullLo : (Instr.inNullLo 0x05).wf = false := by decide
theorem test_wf_inNullLo_range : (Instr.inNullLo 0x40).wf = false := by decide
theorem test_wf_inVcnt : (Instr.inVcnt 0x41).wf = false := by decide
theorem test_wf_inHcnt : (Instr.inHcnt 0x7E).wf = false := by decide
theorem test_wf_inVdata : (Instr.inVdata 0x81).wf = false := by decide
theorem test_wf_inVstat : (Instr.inVstat 0xC1).wf = false := by decide
theorem test_wf_inNullHi : (Instr.inNullHi 0xDC).wf = false := by decide
theorem test_wf_inNullHi_range : (Instr.inNullHi 0xBF).wf = false := by decide
theorem test_wf_outMemctl : (Instr.outMemctl 0x06 0).wf = false := by decide
theorem test_wf_outMemctl_odd : (Instr.outMemctl 0x3F 0).wf = false := by decide
theorem test_wf_outIoctl : (Instr.outIoctl 0x05 0).wf = false := by decide
theorem test_wf_outIoctl_even : (Instr.outIoctl 0x08 0).wf = false := by decide
theorem test_wf_outPsg : (Instr.outPsg 0x80 0).wf = false := by decide
theorem test_wf_outVdata : (Instr.outVdata 0xBF 0).wf = false := by decide
theorem test_wf_outVctl : (Instr.outVctl 0xBE 0).wf = false := by decide
theorem test_wf_outNullHi : (Instr.outNullHi 0xBF 0).wf = false := by decide

/-! ### Decoding: words written from R52 to R58 and 95_test_vectors.md L2.1

`CMD_____A_______D______` = bits 19:16, 15:8, 7:0. -/

theorem test_decode_in_low :
    [0b0000_00000000_00000000, 0b0000_00000001_00000000, 0b0000_00000010_00000000,
      0b0000_00000011_00000000, 0b0000_00000100_00000000, 0b0000_00000101_00000000].map decode =
    [.inP0, .inP1, .inP2, .inP3, .inP4, .inP5] := by decide

theorem test_decode_in_ranges :
    [0b0000_00000110_00000000, 0b0000_00111111_00000000, 0b0000_01000000_00000000,
      0b0000_01111111_00000000, 0b0000_10000000_00000000, 0b0000_10111111_00000000].map decode =
    [.inNullLo 0x06, .inNullLo 0x3F, .inVcnt 0x40, .inHcnt 0x7F, .inVdata 0x80, .inVstat 0xBF] := by decide

theorem test_decode_in_high :
    [0b0000_11000000_00000000, 0b0000_11011100_00000000, 0b0000_11000001_00000000,
      0b0000_11011101_00000000, 0b0000_11000010_00000000, 0b0000_11111111_00000000].map decode =
    [.inC0, .inDC, .inC1, .inDD, .inNullHi 0xC2, .inNullHi 0xFF] := by decide

theorem test_decode_out_low :
    [0b0001_00000000_00010010, 0b0001_00000001_01010000, 0b0001_00000010_00111111,
      0b0001_00000011_01111110, 0b0001_00000100_00000000, 0b0001_00000101_10110000,
      0b0001_00000110_11110000].map decode =
    [.outP0 0x12, .outP1 0x50, .outP2 0x3F, .outP3 0x7E, .outP4 0x00, .outP5 0xB0, .outP6 0xF0] := by decide

theorem test_decode_out_ranges :
    [0b0001_00000111_10101010, 0b0001_00001000_01011010, 0b0001_00111110_10101011,
      0b0001_00111111_10101010, 0b0001_01000000_10011111, 0b0001_10111110_00000001,
      0b0001_10111111_10000001, 0b0001_11000001_11111111].map decode =
    [.outIoctl 0x07 0xAA, .outMemctl 0x08 0x5A, .outMemctl 0x3E 0xAB, .outIoctl 0x3F 0xAA,
      .outPsg 0x40 0x9F, .outVdata 0xBE 0x01, .outVctl 0xBF 0x81, .outNullHi 0xC1 0xFF] := by decide

theorem test_decode_side :
    [0b0010_00010111_01001111, 0b0011_00000000_01111110, 0b0100_11111111_11111111,
      0b0101_11111111_00000001, 0b0101_11111110_00000001, 0b0110_10101011_11001101,
      0b0111_11000000_00000010, 0b1000_11111111_11111110].map decode =
    [.advance 5967, .receive 0x7E, .reset, .link 1, .unlink, .save, .load 0xC0 0x02, .baud 2] := by decide

theorem test_decode_reserved :
    [0b1001_00000000_00000000, 0b1010_00000000_00000001, 0b1011_00000000_00000001,
      0b1100_00000000_00000001, 0b1111_00010010_00110100].map decode =
    [.reserved9 0, .reservedAB 0x00001, .reservedAB 0x10001, .reservedCF 0x00001,
      .reservedCF 0x31234] := by decide

/-- A number above 20 bits is no command word (R59; log 12). -/
theorem test_table_word : decodeTableWord 24 0x2174F = some (.advance 5967) ∧
    decodeTableWord 24 0x100000 = none := by decide

/-! ### The interface of the host -/

/-- The very next step runs the word that was placed, as the first command after reset. -/
theorem test_withFetchWord :
    ((nextOf (step (State.reset.withFetchWord 24 0x10150))).bind (·.find 0)).map (·.reg .port1) =
      some 0x50 := by decide

/-- With nothing issued nothing moves (log 5). -/
theorem test_step_idle : nextOf (step State.reset) = some State.reset := by decide

/-! ### IN: one step each, against L1.1, L1.6 and L2.2 -/

theorem test_inP0_standard :
    resultsAfter .inP0 (one (fresh 0) 0xBF) = some [.byte 0 0xFF] := by decide
theorem test_inP0_japan :
    resultsAfter .inP0 (one (japan (fresh 0)) 0xBF) = some [.byte 0 0xBF] := by decide
/-- Only the peer's line 0 is an output; it reaches result bit 2. -/
theorem test_inP1_line0 : resultsAfter .inP1
    (sys (linkedTo (fresh 0) 1) (withRegs (fresh 1) [(.port2, 0x7E), (.port1, 0x01)]) 0x00) =
      some [.byte 0 0x04] := by decide
/-- RON forces the peer's line 5 to input, so result bit 4 keeps the draw's 1. -/
theorem test_inP1_ron : resultsAfter .inP1
    (sys (linkedTo (fresh 0) 1)
      (withRegs (fresh 1) [(.port2, 0x00), (.port5, 0x20), (.port1, 0x00)]) 0xFF) =
      some [.byte 0 0x10] := by decide
theorem test_inP2 :
    resultsAfter .inP2 (one (withRegs (fresh 0) [(.port2, 0xBF)])) = some [.byte 0 0xBF] := by decide
theorem test_inP3 :
    resultsAfter .inP3 (one (withRegs (fresh 0) [(.port3, 0x55)])) = some [.byte 0 0x55] := by decide
theorem test_inP4_result :
    resultsAfter .inP4 (one (withRegs (fresh 0) [(.port4, 0x99), (.port5, 0xBB)])) =
      some [.byte 0 0x99] := by decide
theorem test_inP4_rxrd :
    regAfter .inP4 (one (withRegs (fresh 0) [(.port4, 0x99), (.port5, 0xBB)])) 0 .port5 =
      some 0xB9 := by decide
theorem test_inP5 :
    resultsAfter .inP5 (one (withRegs (fresh 0) [(.port5, 0x22)])) = some [.byte 0 0x22] ∧
      regAfter .inP5 (one (withRegs (fresh 0) [(.port5, 0x22)])) 0 .port5 = some 0x22 := by decide
/-- IN 0x06 returns the sentinel, not Port6. -/
theorem test_inNullLo :
    resultsAfter (.inNullLo 0x06) (one (withRegs (fresh 0) [(.port6, 0xF0)])) =
      some [.byte 0 0xFF] := by decide
theorem test_inVcnt : eventsAfter (.inVcnt 0x7E) (one (fresh 0) 0x12) =
    some [.read 0 .getVCounter 0x12] := by decide
theorem test_inHcnt : eventsAfter (.inHcnt 0x7F) (one (fresh 0) 0x40) =
    some [.read 0 .getHCounter 0x40] := by decide
theorem test_inVdata : eventsAfter (.inVdata 0xBE) (one (fresh 0) 0x00) =
    some [.read 0 .getDataPort 0x00] := by decide
theorem test_inVstat : eventsAfter (.inVstat 0xBF) (one (fresh 0) 0x80) =
    some [.read 0 .getStatusFlags 0x80] := by decide
theorem test_inC0 : resultsAfter .inC0 (one (fresh 0) 0xFE) = some [.byte 0 0xFE] := by decide
theorem test_inDC : resultsAfter .inDC (one (fresh 0) 0xFF) = some [.byte 0 0xFF] := by decide
theorem test_inC1 :
    resultsAfter .inC1 (one (withRegs (fresh 0) [(.port3F, 0x80)]) 0x55) =
      some [.byte 0 0x95] := by decide
theorem test_inDD :
    resultsAfter .inDD (one (withRegs (fresh 0) [(.port3F, 0x40)]) 0xAA) =
      some [.byte 0 0x6A] := by decide
theorem test_inNullHi :
    resultsAfter (.inNullHi 0xDE) (one (fresh 0)) = some [.byte 0 0xFF] := by decide

/-! ### OUT: one step each, against L2.3 -/

theorem test_outP0 : regAfter (.outP0 0x12) (one (fresh 0)) 0 .port0 = some 0x12 := by decide
theorem test_outP1 : regAfter (.outP1 0x50) (one (fresh 0)) 0 .port1 = some 0x50 := by decide
/-- The old bit 7 was 1; the new bit 7 decides. -/
theorem test_outP2_edge :
    eventsAfter (.outP2 0x00) (one (withRegs (fresh 0) [(.port2, 0xC0)])) =
      some [.nmiRequest 0] := by decide
/-- Bit 6 falls but the new bit 7 is 1. -/
theorem test_outP2_gated :
    eventsAfter (.outP2 0x80) (one (withRegs (fresh 0) [(.port2, 0x40)])) = some [] := by decide
/-- RON alone starts a transfer. -/
theorem test_outP3_starts :
    (ctlAfter (.outP3 0x55) (one (withRegs (fresh 0) [(.port5, 0x20)])) 0).map
        (fun c => (c.serial, c.reg .port5)) =
      some ({ active := true, clocksRemaining := 5968, baudRate := .b4800, sendBuffer := 0x55 }, 0x21) := by
  decide
theorem test_outP3_suppressed :
    ctlAfter (.outP3 0xAA) (one (sending (fresh 0) 0x55 5968 0x11)) 0 =
      some (sending (fresh 0) 0x55 5968 0x11) := by decide
theorem test_outP4 :
    regAfter (.outP4 0x00) (one (withRegs (fresh 0) [(.port4, 0x99)])) 0 .port4 = some 0x99 := by decide
theorem test_outP5_status :
    (ctlAfter (.outP5 0x7D) (one (withRegs (fresh 0) [(.port5, 0x02)])) 0).map
        (fun c => (c.reg .port5, c.serial.baudRate)) = some (0x7A, .b2400) := by decide
/-- The rate changes during a transfer and the count does not. -/
theorem test_outP5_running :
    (ctlAfter (.outP5 0xD0) (one (sending (fresh 0) 0x55 5968 0x11)) 0).map
        (fun c => (c.reg .port5, c.serial.baudRate, c.serial.clocksRemaining)) =
      some (0xD1, .b300, 5968) := by decide
theorem test_outP6 :
    regAfter (.outP6 0xF0) (one (fresh 0)) 0 .port6 = some 0xF0 ∧
      eventsAfter (.outP6 0xF0) (one (fresh 0)) = some [.call 0 (.writeStereoRegister 0xF0)] := by decide
theorem test_outMemctl :
    eventsAfter (.outMemctl 0x3E 0xAB) (one (fresh 0)) =
      some [.call 0 (.setMemoryControlRegister 0xAB)] := by decide
/-- Bit 1 rises while bit 3 falls. -/
theorem test_outIoctl_latch :
    eventsAfter (.outIoctl 0x3F 0x02) (one (withRegs (fresh 0) [(.port3FHC, 0x08)])) =
      some [.call 0 .latchHCounter] := by decide
theorem test_outIoctl_japan :
    (ctlAfter (.outIoctl 0x07 0x20) (one (japan (fresh 0))) 0).map
        (fun c => (c.reg .port3F, c.reg .port3FHC)) = some (0xBF, 0x00) := by decide
theorem test_outPsg : eventsAfter (.outPsg 0x7F 0x9F) (one (fresh 0)) =
    some [.call 0 (.writeToneRegister 0x9F)] := by decide
theorem test_outVdata : eventsAfter (.outVdata 0xBE 0x01) (one (fresh 0)) =
    some [.call 0 (.writeData 0x01)] := by decide
theorem test_outVctl : eventsAfter (.outVctl 0xBF 0x81) (one (fresh 0)) =
    some [.call 0 (.writeControl 0x81)] := by decide
theorem test_outNullHi :
    ctlAfter (.outNullHi 0xDD 0xFF) (one (fresh 0)) 0 = some (fresh 0) := by decide

/-! ### Side-band: one step each, against L2.4 to L2.7 and P1 -/

/-- P1 line 11: the byte is delivered and one NMI requested. -/
theorem test_advance_delivers :
    eventsAfter (.advance 1)
        (sys (linkedTo (sending (fresh 0) 0x7E 1 0xB1) 1) (withRegs (fresh 1) [(.port5, 0x28)])) =
      some [.peerDelivery 0 1 0x7E, .nmiRequest 1] ∧
    regAfter (.advance 1)
        (sys (linkedTo (sending (fresh 0) 0x7E 1 0xB1) 1) (withRegs (fresh 1) [(.port5, 0x28)])) 1 .port5 =
      some 0x2A := by decide
theorem test_advance_counts :
    (ctlAfter (.advance 5967) (one (sending (fresh 0) 0x5A 5968 0x11)) 0).map
        (fun c => (c.serial.clocksRemaining, c.reg .port5)) = some (1, 0x11) := by decide
theorem test_receive :
    regAfter (.receive 0x7E) (one (withRegs (fresh 0) [(.port5, 0x28)])) 0 .port5 = some 0x2A ∧
      eventsAfter (.receive 0x7E) (one (withRegs (fresh 0) [(.port5, 0x28)])) =
        some [.nmiRequest 0] := by decide
/-- INT without RON: nothing changes and no NMI is requested. -/
theorem test_receive_dropped :
    ctlAfter (.receive 0x7E) (one (withRegs (fresh 0) [(.port5, 0x08)])) 0 =
        some (withRegs (fresh 0) [(.port5, 0x08)]) ∧
      eventsAfter (.receive 0x7E) (one (withRegs (fresh 0) [(.port5, 0x08)])) = some [] := by decide
/-- RESET mid-transfer: reference values, idle, the link kept, no delivery. -/
theorem test_reset :
    ctlAfter .reset (one (linkedTo (sending (fresh 0) 0x55 100 0x55) 1)) 0 =
        some (linkedTo (fresh 0) 1) ∧
      eventsAfter .reset (one (linkedTo (sending (fresh 0) 0x55 100 0x55) 1)) = some [] := by decide
theorem test_link_self :
    (ctlAfter (.link 0) (one (linkedTo (fresh 0) 1)) 0).map (·.peer) = some (some 1) := by decide
theorem test_link_unknown :
    refusalOf (exec (.link 7) (one (fresh 0))) = some .unknownPeer := by decide
theorem test_unlink :
    (ctlAfter .unlink (one (linkedTo (fresh 0) 1)) 0).map (·.peer) = some none := by decide
theorem test_save :
    resultsAfter .save (one (withRegs (fresh 0) [(.port3F, 0x3F), (.port3FHC, 0x0A)])) =
      some [.pair 0 0x3F 0x0A] := by decide
theorem test_load_raw :
    (ctlAfter (.load 0x12 0xFF) (one (fresh 0)) 0).map (fun c => (c.reg .port3F, c.reg .port3FHC)) =
      some (0x12, 0xFF) := by decide
theorem test_load_active :
    refusalOf (exec (.load 0x3F 0x0A) (one (sending (fresh 0) 0x55 5968 0x11))) =
      some .loadDuringTransfer := by decide
theorem test_baud :
    (ctlAfter (.baud 3) (one (fresh 0)) 0).map (fun c => (c.serial.baudRate, c.reg .port5)) =
      some (.b300, 0x00) := by decide
theorem test_reserved :
    refusalOf (exec (.reserved9 0) (one (fresh 0))) = some .reservedCommand ∧
      refusalOf (exec (.reservedAB 0) (one (fresh 0))) = some .reservedCommand ∧
      refusalOf (exec (.reservedCF 0x31234) (one (fresh 0))) = some .reservedCommand := by decide
theorem test_unknown_instance :
    refusalOf (exec .inP2 { one (fresh 0) with self := 5 }) = some .unknownInstance := by decide
/-- R60: 95456 clocks take two lines. -/
theorem test_advance_lines : advanceLines 95456 = [.advance 65535, .advance 29921] := by decide

/-! ### Witnesses: states and operands that meet the hypotheses of each statement

`a0` is a linked controller in a transfer of 0x5A with 5968 clocks to go, `b0` its peer; `idle0` is idle with
every enable clear. -/

/-- Instance 0, sending to instance 1. -/
def a0 : Controller := linkedTo (sending (fresh 0) 0x5A 5968 0x11) 1

/-- Instance 1 with the given Port5, linked back. -/
def peerWith (p5 : Byte) : Controller := linkedTo (withRegs (fresh 1) [(.port5, p5)]) 0

/-- Both linked, instance 0 sending. -/
def busy : State := sys a0 (peerWith 0x28)

/-- Both linked and idle, instance 0 with the given Port5. -/
def calm (p5 : Byte) : State := sys (linkedTo (withRegs (fresh 0) [(.port5, p5)]) 1) (peerWith 0x28)

/-- Both linked; instance 0 has one clock to go. -/
def ending (p5 : Byte) : State := sys (linkedTo (sending (fresh 0) 0x5A 1 0x11) 1) (peerWith p5)

/-! #### Encoding -/

theorem witness_EveryCommandDecodesFromItsEncoding :
    (Instr.inNullLo 0x06).wf = true ∧ (Instr.inNullLo 0x3F).wf = true ∧ (Instr.inVcnt 0x40).wf = true ∧
    (Instr.inHcnt 0x7F).wf = true ∧ (Instr.inVdata 0xBE).wf = true ∧ (Instr.inVstat 0x81).wf = true ∧
    (Instr.inNullHi 0xDE).wf = true ∧ (Instr.outMemctl 0x08 0xFF).wf = true ∧
    (Instr.outIoctl 0x07 0x00).wf = true ∧ (Instr.outPsg 0x7F 0x01).wf = true ∧
    (Instr.outVdata 0x80 0x01).wf = true ∧ (Instr.outVctl 0xBF 0x01).wf = true ∧
    (Instr.outNullHi 0xC0 0x01).wf = true ∧ (Instr.reservedCF 0x3FFFF).wf = true := by decide

/-- The boundary address of each clause. -/
theorem witness_InPortsSelectTheirRows :
    decode (packWord 0x0 0x05 0) = .inP5 ∧ decode (packWord 0x0 0x06 0) = .inNullLo 0x06 ∧
    decode (packWord 0x0 0x3F 0) = .inNullLo 0x3F ∧ decode (packWord 0x0 0x40 0) = .inVcnt 0x40 ∧
    decode (packWord 0x0 0x7F 0) = .inHcnt 0x7F ∧ decode (packWord 0x0 0x80 0) = .inVdata 0x80 ∧
    decode (packWord 0x0 0xBF 0) = .inVstat 0xBF ∧ decode (packWord 0x0 0xC0 0) = .inC0 ∧
    decode (packWord 0x0 0xC2 0) = .inNullHi 0xC2 ∧ decode (packWord 0x0 0xDB 0) = .inNullHi 0xDB ∧
    decode (packWord 0x0 0xDE 0) = .inNullHi 0xDE ∧ decode (packWord 0x0 0xFF 0) = .inNullHi 0xFF := by
  decide

/-- The boundary address of each clause. -/
theorem witness_OutPortsSelectTheirRows :
    decode (packWord 0x1 0x06 1) = .outP6 1 ∧ decode (packWord 0x1 0x07 1) = .outIoctl 0x07 1 ∧
    decode (packWord 0x1 0x08 1) = .outMemctl 0x08 1 ∧ decode (packWord 0x1 0x3E 1) = .outMemctl 0x3E 1 ∧
    decode (packWord 0x1 0x3F 1) = .outIoctl 0x3F 1 ∧ decode (packWord 0x1 0x40 1) = .outPsg 0x40 1 ∧
    decode (packWord 0x1 0x7F 1) = .outPsg 0x7F 1 ∧ decode (packWord 0x1 0x80 1) = .outVdata 0x80 1 ∧
    decode (packWord 0x1 0xBF 1) = .outVctl 0xBF 1 ∧ decode (packWord 0x1 0xC0 1) = .outNullHi 0xC0 1 ∧
    decode (packWord 0x1 0xFF 1) = .outNullHi 0xFF 1 := by decide

theorem witness_ReservedCodesAreRefused :
    9 ≤ (fieldCmd 0x90000).toNat ∧ 9 ≤ (fieldCmd 0xFFFFF).toNat ∧ ¬ 9 ≤ (fieldCmd 0x8FFFF).toNat := by
  decide

/-! #### The step -/

theorem witness_StepRunsTheOldestIssue :
    (State.reset.issue { target := 0, word := 0x10150, draw := 0 }).pending =
      { target := 0, word := 0x10150, draw := 0 } :: [] ∧ State.reset.pending = [] := by decide

theorem witness_CommandsKeepConfigurationAndInputs :
    ∃ t, exec (.outP2 0x3F) busy = .next t ∧ t ≠ busy := ⟨_, rfl, by decide⟩

theorem witness_CommandsAppendTheirObservation :
    (∃ t, exec .inP1 busy = .next t) ∧ Instr.inP1.isIn = true ∧ (∃ t, exec .save busy = .next t) ∧
      (∃ t, exec (.outP2 0x3F) busy = .next t) ∧ (Instr.outP2 0x3F).isIn = false ∧
      Instr.outP2 0x3F ≠ .save := ⟨⟨_, rfl⟩, rfl, ⟨_, rfl⟩, ⟨_, rfl⟩, rfl, by decide⟩

/-! #### IN and OUT -/

/-- The one hypothesis of InP2P3P5ReturnTheRegister, InP4ReturnsPort4AndClearsRxrd,
UnmappedPortsReadAllOnes, VideoPortsReturnTheDraw, InC0AndInDCReturnPortA, InC1AndInDDMergePort3F,
OutP0StoresPort0, OutP1StoresPort1, OutP4AndOutNullHiChangeNothing, OutP6StoresAndForwards,
OutMemctlForwards, OutPsgVdataVctlForward, SaveReturnsTheShadows and ResetRestoresTheResetValues. -/
theorem witness_addressed_controller : busy.find busy.self = some a0 := by decide

theorem witness_InP0ReturnsThePadAndRegionByte :
    busy.find busy.self = some a0 ∧ a0.config.region ≠ .japanVariant ∧
    (one (japan (fresh 0))).find 0 = some (japan (fresh 0)) ∧
    (japan (fresh 0)).config.region = .japanVariant := by decide

/-- With a peer, and without one. -/
theorem witness_InP1MergesTheLinesThePeerDrives :
    (busy.find busy.self = some a0 ∧ PeerPresent busy a0 ∧ a0.peer = some 1 ∧
      busy.find 1 = some (peerWith 0x28)) ∧
    ((one (fresh 0)).find 0 = some (fresh 0) ∧ PeerPresent (one (fresh 0)) (fresh 0) ∧
      (fresh 0).peer = none) := by
  refine ⟨⟨by decide, ?_, rfl, by decide⟩, by decide, ?_, rfl⟩
  · intro p h
    obtain rfl : 1 = p := Option.some.inj h
    exact ⟨peerWith 0x28, by decide⟩
  · intro p h
    cases h

theorem witness_SigmaSwapsTheLinePairs : 0 < 7 ∧ 6 < 7 ∧ sigma 0 < 7 ∧ sigma 6 = 6 := by decide

/-- Both sides of each direction rule. -/
theorem witness_OutputDirectionFollowsPort2AndPort5 :
    (a0.bank.port5.getLsbD 4 = true ∧ a0.bank.port5.getLsbD 5 = false) ∧
    ((peerWith 0x28).bank.port5.getLsbD 5 = true ∧ (peerWith 0x28).bank.port5.getLsbD 4 = false) := by
  decide

theorem witness_ReadsWriteNothingButRxrd :
    Instr.inP4.isIn = true ∧ (1 : InstanceId) ≠ (calm 0x02).self ∧
      ∃ t, exec .inP4 (calm 0x02) = .next t ∧ t.controllers ≠ (calm 0x02).controllers ∧
      Instr.inP5.isIn = true ∧ Instr.inP5 ≠ .inP4 ∧ ∃ u, exec .inP5 busy = .next u ∧ u.find 1 = busy.find 1 :=
  ⟨rfl, by decide, _, rfl, by decide, rfl, by decide, _, rfl, by decide⟩

/-- The edge, and each way to miss it. -/
theorem witness_OutP2StoresPort2AndRequestsTheNmi :
    busy.find busy.self = some a0 ∧
    ((0x3F : Byte).getLsbD 7 = false ∧ a0.bank.port2.getLsbD 6 = true ∧ (0x3F : Byte).getLsbD 6 = false) ∧
    ¬((0xBF : Byte).getLsbD 7 = false ∧ a0.bank.port2.getLsbD 6 = true ∧ (0xBF : Byte).getLsbD 6 = false) ∧
    ¬((0x7F : Byte).getLsbD 7 = false ∧ a0.bank.port2.getLsbD 6 = true ∧ (0x7F : Byte).getLsbD 6 = false) := by
  decide

/-- Active; idle with both enables clear; idle with TON; idle with RON alone. -/
theorem witness_OutP3StoresAndMayStartATransfer :
    (busy.find busy.self = some a0 ∧ a0.serial.active = true) ∧
    (∃ c, (calm 0x08).find 0 = some c ∧ c.serial.active = false ∧ c.bank.port5.getLsbD 4 = false ∧
      c.bank.port5.getLsbD 5 = false) ∧
    (∃ c, (calm 0x10).find 0 = some c ∧ c.serial.active = false ∧ c.bank.port5.getLsbD 4 = true) ∧
    (∃ c, (calm 0x20).find 0 = some c ∧ c.serial.active = false ∧ c.bank.port5.getLsbD 5 = true) :=
  ⟨by decide, ⟨_, rfl, by decide⟩, ⟨_, rfl, by decide⟩, ⟨_, rfl, by decide⟩⟩

/-- Each selector at the ends of its range. -/
theorem witness_OutP5UpdatesTheControlBitsAndTheRate :
    busy.find busy.self = some a0 ∧ (0x3F : Byte).toNat / 64 = 0 ∧ (0x40 : Byte).toNat / 64 = 1 ∧
    (0x7F : Byte).toNat / 64 = 1 ∧ (0x80 : Byte).toNat / 64 = 2 ∧ (0xBF : Byte).toNat / 64 = 2 ∧
    (0xC0 : Byte).toNat / 64 = 3 := by decide

/-- Both regions; a rising trigger bit; a trigger bit that stays set. -/
theorem witness_OutIoctlLatchesAndWritesTheShadows :
    busy.find busy.self = some a0 ∧ a0.config.region ≠ .japanVariant ∧
    (japan (fresh 0)).config.region = .japanVariant ∧
    (∃ k, (0x02 : Byte).getLsbD k = true ∧ busy.config.hcTriggerMask.getLsbD k = true ∧
      a0.bank.port3FHC.getLsbD k = false) ∧
    (∀ k, (0x02 : Byte).getLsbD k = true → busy.config.hcTriggerMask.getLsbD k = true →
      (withRegs (fresh 0) [(.port3FHC, 0x02)]).bank.port3FHC.getLsbD k = true) :=
  ⟨by decide, by decide, by decide, ⟨1, by decide⟩, fun _ h _ => h⟩

/-- The least and the greatest OUT word, an OUT, a linked system, and each forwarding OUT. -/
theorem witness_WritesReturnNothingAndKeepLinks :
    fieldCmd 0x10000 = 0x1 ∧ fieldCmd 0x1FFFF = 0x1 ∧
    (Instr.outPsg 0x40 0x9F).isOut = true ∧ busy.self ∈ busy.ids ∧
      (∃ t, exec (.outPsg 0x40 0x9F) busy = .next t ∧ t.find 0 = some a0) ∧
      (∃ t, exec (.outMemctl 0x08 1) busy = .next t) ∧ (∃ t, exec (.outVdata 0x80 1) busy = .next t) ∧
      (∃ t, exec (.outVctl 0x81 1) busy = .next t) ∧ (∃ t, exec (.outP6 1) busy = .next t) :=
  ⟨by decide, by decide, rfl, by decide, ⟨_, rfl, by decide⟩, ⟨_, rfl⟩, ⟨_, rfl⟩, ⟨_, rfl⟩, ⟨_, rfl⟩⟩

/-! #### Serial -/

/-- Idle; one clock short of the count; at the count with no peer. -/
theorem witness_AdvanceCountsDownAndCompletes :
    (∃ c, (calm 0x10).find 0 = some c ∧ c.serial.active = false) ∧
    (busy.find busy.self = some a0 ∧ a0.serial.active = true ∧
      ((5967 : BitVec 16).toNat : Int) < a0.serial.clocksRemaining) ∧
    (∃ c, (one (sending (fresh 0) 0x5A 5968 0x11)).find 0 = some c ∧ c.serial.active = true ∧
      c.serial.clocksRemaining ≤ ((5968 : BitVec 16).toNat : Int) ∧ c.peer = none) :=
  ⟨⟨_, rfl, by decide⟩, by decide, ⟨_, rfl, by decide⟩⟩

/-- A completion at the count, with a peer that has RON clear, RON alone, and RON and INT. -/
theorem witness_AdvanceDeliversToThePeer :
    (busy.find busy.self = some a0 ∧ a0.peer = some 1 ∧ (1 : InstanceId) ≠ busy.self ∧
      busy.find 1 = some (peerWith 0x28) ∧ a0.serial.active = true ∧
      a0.serial.clocksRemaining ≤ ((5968 : BitVec 16).toNat : Int)) ∧
    ((peerWith 0x28).bank.port5.getLsbD 5 = true ∧ (peerWith 0x28).bank.port5.getLsbD 3 = true) ∧
    ((peerWith 0x20).bank.port5.getLsbD 5 = true ∧ (peerWith 0x20).bank.port5.getLsbD 3 = false) ∧
    ((peerWith 0x08).bank.port5.getLsbD 5 = false ∧ (sys a0 (peerWith 0x08)).find 1 = some (peerWith 0x08)) := by
  decide

/-- RON clear; RON and INT; RON alone with RXRD already set. -/
theorem witness_ReceiveStoresTheByteWhenEnabled :
    (∃ c, (calm 0x08).find 0 = some c ∧ c.bank.port5.getLsbD 5 = false) ∧
    (∃ c, (calm 0x28).find 0 = some c ∧ c.bank.port5.getLsbD 5 = true ∧ c.bank.port5.getLsbD 3 = true) ∧
    (∃ c, (calm 0x22).find 0 = some c ∧ c.bank.port5.getLsbD 5 = true ∧ c.bank.port5.getLsbD 3 = false) :=
  ⟨⟨_, rfl, by decide⟩, ⟨_, rfl, by decide⟩, ⟨_, rfl, by decide⟩⟩

/-- Every selector. -/
theorem witness_BaudSetsTheRateAlone :
    busy.find busy.self = some a0 ∧ ([0, 1, 2, 3] : List (BitVec 2)).Nodup := by decide

/-- A start; the two ways to end; an idle controller that stays idle. -/
theorem witness_SerialMachineMovesOnlyByItsTransitions :
    (∃ t d, exec (.outP3 1) (calm 0x10) = .next t ∧ t.find 0 = some d ∧ d.serial.active = true) ∧
    (∃ t d, exec (.advance 5968) busy = .next t ∧ t.find 0 = some d ∧ d.serial.active = false) ∧
    (∃ t d, exec .reset busy = .next t ∧ t.find 0 = some d ∧ d.serial.active = false) ∧
    (∃ t d, exec (.advance 5967) busy = .next t ∧ t.find 0 = some d ∧ d.serial.active = true ∧
      (1 : InstanceId) ≠ busy.self ∧ t.find 1 = some (peerWith 0x28)) :=
  ⟨⟨_, _, rfl, rfl, by decide⟩, ⟨_, _, rfl, rfl, by decide⟩, ⟨_, _, rfl, rfl, by decide⟩,
    ⟨_, _, rfl, rfl, by decide⟩⟩

/-- A rate, a byte, a count and the activity that change. -/
theorem witness_SerialFieldsChangeOnlyByTheirWriters :
    (∃ t d, exec (.baud 3) busy = .next t ∧ t.find 0 = some d ∧ d.serial.baudRate ≠ a0.serial.baudRate) ∧
    (∃ t c d, exec (.outP3 1) (calm 0x10) = .next t ∧ (calm 0x10).find 0 = some c ∧ t.find 0 = some d ∧
      d.serial.active ≠ c.serial.active ∧
      d.serial.sendBuffer ≠ c.serial.sendBuffer ∧ d.serial.clocksRemaining ≠ c.serial.clocksRemaining) ∧
    (∃ t d, exec (.advance 1) busy = .next t ∧ busy.find 0 = some a0 ∧ t.find 0 = some d ∧
      d.serial.clocksRemaining ≠ a0.serial.clocksRemaining) :=
  ⟨⟨_, _, rfl, rfl, by decide⟩, ⟨_, _, _, rfl, rfl, rfl, by decide⟩, ⟨_, _, rfl, by decide, rfl, by decide⟩⟩

theorem witness_AdvanceLinesAdvanceByTheirTotal :
    65535 < 65536 ∧ advanceLines 65536 = [.advance 65535, .advance 1] := by decide

/-! #### Links and persistence -/

/-- A self-link, an instance, and an identifier outside `INSTANCES`. -/
theorem witness_LinkSetsTheReference :
    busy.find busy.self = some a0 ∧ (0 : InstanceId) = busy.self ∧
    ((1 : InstanceId) ≠ busy.self ∧ (1 : InstanceId) ∈ busy.ids) ∧
    ((7 : InstanceId) ≠ busy.self ∧ (7 : InstanceId) ∉ busy.ids) := by decide

/-- An addressed controller that is linked and in a transfer, at the end of its count. -/
theorem witness_UnlinkClearsTheReference :
    busy.find busy.self = some a0 ∧ a0.serial.active = true ∧
      a0.serial.clocksRemaining ≤ ((5968 : BitVec 16).toNat : Int) := by decide

theorem witness_LinksChangeOnlyByLinkAndUnlink :
    (∃ t d, exec .unlink busy = .next t ∧ busy.find 0 = some a0 ∧ t.find 0 = some d ∧ d.peer ≠ a0.peer) ∧
    (∃ t d, exec (.link 1) (one (fresh 0)) = .next t ∧ (one (fresh 0)).find 0 = some (fresh 0) ∧
      t.find 0 = some d ∧ d.peer ≠ (fresh 0).peer) :=
  ⟨⟨_, _, rfl, by decide, rfl, by decide⟩, ⟨_, _, rfl, by decide, rfl, by decide⟩⟩

theorem witness_LoadStoresTheShadows :
    (busy.find busy.self = some a0 ∧ a0.serial.active = true) ∧
    (∃ c, (calm 0x10).find 0 = some c ∧ c.serial.active = false) := ⟨by decide, ⟨_, rfl, by decide⟩⟩

/-- A SAVE, and a later idle state of the same instance with other shadows. -/
theorem witness_SaveThenLoadRestoresTheShadows :
    (busy.find busy.self = some a0 ∧ ∃ t, exec .save busy = .next t) ∧
    (∃ c', (one (withRegs (fresh 0) [(.port3F, 0xC0)])).self = busy.self ∧
      (one (withRegs (fresh 0) [(.port3F, 0xC0)])).find 0 = some c' ∧ c'.serial.active = false ∧
      c'.bank.port3F ≠ a0.bank.port3F) :=
  ⟨⟨by decide, _, rfl⟩, ⟨_, by decide, rfl, by decide⟩⟩

/-! #### Boot and the whole machine -/

theorem witness_BootHasTheInvariant : fresh 1 ∈ State.reset.controllers := by decide

theorem witness_EveryStepKeepsTheInvariant :
    (busy.issue { target := 0, word := 0x21750, draw := 0 }).Inv ∧
    ∃ t, step (busy.issue { target := 0, word := 0x21750, draw := 0 }) = .next t ∧ t ≠ busy :=
  ⟨by decide, _, rfl, by decide⟩

/-- No dangling link, and each of the four cases. -/
theorem witness_RefusalsAreExactlyTheFourCases :
    busy.linkOk ∧ RefusedBySpec (.reserved9 0) busy .reservedCommand ∧
    RefusedBySpec (.link 7) busy .unknownPeer ∧
    RefusedBySpec (.load 1 2) busy .loadDuringTransfer ∧
    State.linkOk { busy with self := 5 } ∧ RefusedBySpec .save { busy with self := 5 } .unknownInstance :=
  ⟨by decide, .reservedCommand rfl, .unknownPeer 7 rfl (by decide) (by decide),
    .loadDuringTransfer 1 2 a0 rfl (by decide) rfl, by decide, .unknownInstance rfl (by decide)⟩

/-- Both sources, the second directly and through a delivery; and a controller with no path. -/
theorem witness_NmiHasExactlyTwoSources :
    (∃ t, exec (.outP2 0x3F) busy = .next t ∧ NmiDue (.outP2 0x3F) busy 0 a0 ∧ a0.config.nmiPath = true) ∧
    (∃ t, exec (.receive 1) (calm 0x28) = .next t ∧ ∃ d, (calm 0x28).find 0 = some d ∧
      NmiDue (.receive 1) (calm 0x28) 0 d) ∧
    (∃ t, exec (.advance 1) (ending 0x28) = .next t ∧ (ending 0x28).find 1 = some (peerWith 0x28) ∧
      NmiDue (.advance 1) (ending 0x28) 1 (peerWith 0x28)) ∧
    (pathless (fresh 0)).config.nmiPath = false := by
  refine ⟨⟨_, rfl, .inl ⟨0x3F, rfl, rfl, by decide⟩, rfl⟩, ⟨_, rfl, _, rfl, .inr (.inl ⟨1, rfl, rfl, by decide⟩)⟩,
    ⟨_, rfl, by decide, .inr (.inr ⟨1, 0x5A, rfl, ⟨_, rfl, by decide⟩, by decide⟩)⟩, rfl⟩

/-- A register of the addressed controller, and one of the peer through a delivery. -/
theorem witness_RegistersChangeOnlyByTheirWriters :
    (∃ t d, exec (.outP1 0x50) busy = .next t ∧ busy.find 0 = some a0 ∧ t.find 0 = some d ∧
      d.reg .port1 ≠ a0.reg .port1) ∧
    (∃ t d, exec (.advance 1) (ending 0x20) = .next t ∧ (ending 0x20).find 1 = some (peerWith 0x20) ∧
      t.find 1 = some d ∧ d.reg .port4 ≠ (peerWith 0x20).reg .port4) :=
  ⟨⟨_, _, rfl, by decide, rfl, by decide⟩, ⟨_, _, rfl, by decide, rfl, by decide⟩⟩

/-- TXFL set and cleared, RXRD set directly, through a delivery and cleared. -/
theorem witness_StatusBitsChangeOnlyByTheBlock :
    busy.config.wf ∧
    (∃ t c d, exec (.outP3 1) (calm 0x10) = .next t ∧ (calm 0x10).find 0 = some c ∧ t.find 0 = some d ∧
      c.bank.port5.getLsbD 0 = false ∧ d.bank.port5.getLsbD 0 = true) ∧
    (∃ t c d, exec (.advance 1) (ending 0x20) = .next t ∧ (ending 0x20).find 0 = some c ∧ t.find 0 = some d ∧
      c.bank.port5.getLsbD 0 = true ∧ d.bank.port5.getLsbD 0 = false) ∧
    (∃ t c d, exec (.advance 1) (ending 0x20) = .next t ∧ (ending 0x20).find 1 = some c ∧ t.find 1 = some d ∧
      c.bank.port5.getLsbD 1 = false ∧ d.bank.port5.getLsbD 1 = true) ∧
    (∃ t c d, exec .inP4 (calm 0x02) = .next t ∧ (calm 0x02).find 0 = some c ∧ t.find 0 = some d ∧
      c.bank.port5.getLsbD 1 = true ∧ d.bank.port5.getLsbD 1 = false) ∧
    (∃ t c d, exec .reset (calm 0x04) = .next t ∧ (calm 0x04).find 0 = some c ∧ t.find 0 = some d ∧
      d.bank.port5.getLsbD 2 ≠ c.bank.port5.getLsbD 2) :=
  ⟨by decide, ⟨_, _, _, rfl, rfl, rfl, by decide⟩, ⟨_, _, _, rfl, rfl, rfl, by decide⟩,
    ⟨_, _, _, rfl, rfl, rfl, by decide⟩, ⟨_, _, _, rfl, rfl, rfl, by decide⟩, ⟨_, _, _, rfl, rfl, rfl, by decide⟩⟩

theorem witness_OtherControllersOnlyReceive :
    ∃ t, exec (.advance 1) (ending 0x20) = .next t ∧ (1 : InstanceId) ≠ (ending 0x20).self ∧
      t.find 1 ≠ (ending 0x20).find 1 := ⟨_, rfl, by decide⟩

/-- Two states that differ in Port0 and Port6. -/
theorem witness_UnreadRegistersAreNeverObserved :
    (one (withRegs (fresh 0) [(.port0, 1), (.port6, 2)])).forgetUnread = (one (fresh 0)).forgetUnread ∧
    one (withRegs (fresh 0) [(.port0, 1), (.port6, 2)]) ≠ one (fresh 0) := by decide

end Sys2Proof.Tests
end

section
/-! SUPPORT. The IN family (40_port_read.md): the effect of each kind of read, the meaning of each read
command on the controller it is addressed to, and the statements O16 to O19. -/

namespace Sys2Proof.Machine

/-! ### RXRD cleared, bit by bit (R67) -/

@[simp] theorem rxrd_clearRxrd (v : Byte) : rxrd (clearRxrd v) = false := by
  unfold rxrd
  rw [clearRxrd_getLsbD]
  simp

/-- Clearing RXRD keeps every other bit. -/
theorem clearRxrd_getLsbD_of_ne (v : Byte) {k : Nat} (hk : k ≠ 1) :
    (clearRxrd v).getLsbD k = v.getLsbD k := by
  rw [clearRxrd_getLsbD]
  by_cases h8 : k < 8
  · simp [hk, h8]
  · simp [BitVec.getLsbD_of_ge v k (by omega)]

variable {s t : State} {c : Controller} {rs : List CommandResult} {es : List Event}

/-! ### The effect of a read -/

/-- The byte an IN returns is its own, whatever the command stored before it. -/
theorem Ran.answerByte (h : Ran s t c rs es) (v : Byte) :
    Ran s (t.answerByte v) c (rs ++ [.byte s.self v]) es := by
  rw [answerByte_eq, h.kept.self]
  exact h.answer _

/-- The read of an unmapped port returns 0xFF (R69, R76). -/
theorem Ran.readSentinel (h : s.find s.self = some c) :
    Ran s s.readSentinel c [.byte s.self 0xFF] [] :=
  ((Ran.refl h).diag _ _).answerByte _

/-- The read of a collaborator makes its event and returns the draw as it is (R62). -/
theorem Ran.readDevice (h : s.find s.self = some c) (source : DeviceRead) :
    Ran s (s.readDevice source) c [.byte s.self s.draw] [.read s.self source s.draw] :=
  ((Ran.refl h).emit _).answerByte _

/-! ### The read commands on the controller addressed -/

theorem exec_inP2 (h : s.find s.self = some c) : exec .inP2 s = .next (s.answerByte c.bank.port2) :=
  onSelf_some h _

theorem exec_inP3 (h : s.find s.self = some c) : exec .inP3 s = .next (s.answerByte c.bank.port3) :=
  onSelf_some h _

theorem exec_inP4 (h : s.find s.self = some c) :
    exec .inP4 s =
      .next ((s.put (c.setReg .port5 (clearRxrd c.bank.port5))).answerByte c.bank.port4) :=
  onSelf_some h _

theorem exec_inP5 (h : s.find s.self = some c) : exec .inP5 s = .next (s.answerByte c.bank.port5) :=
  onSelf_some h _

theorem exec_inNullLo (h : s.find s.self = some c) (a : Byte) :
    exec (.inNullLo a) s = .next s.readSentinel :=
  onSelf_some h _

theorem exec_inNullHi (h : s.find s.self = some c) (a : Byte) :
    exec (.inNullHi a) s = .next s.readSentinel :=
  onSelf_some h _

theorem exec_inVcnt (h : s.find s.self = some c) (a : Byte) :
    exec (.inVcnt a) s = .next (s.readDevice .getVCounter) :=
  onSelf_some h _

theorem exec_inHcnt (h : s.find s.self = some c) (a : Byte) :
    exec (.inHcnt a) s = .next (s.readDevice .getHCounter) :=
  onSelf_some h _

theorem exec_inVdata (h : s.find s.self = some c) (a : Byte) :
    exec (.inVdata a) s = .next (s.readDevice .getDataPort) :=
  onSelf_some h _

theorem exec_inVstat (h : s.find s.self = some c) (a : Byte) :
    exec (.inVstat a) s = .next (s.readDevice .getStatusFlags) :=
  onSelf_some h _

/-! ### The statements -/

/-- Settles O16: the three reads only answer, with the register as it is. -/
theorem inP2P3P5ReturnTheRegister : Obligations.InP2P3P5ReturnTheRegister := by
  intro s c h
  have hAnswer (v : Byte) : Ran s (s.answerByte v) c [.byte s.self v] [] := (Ran.refl h).answerByte v
  exact ⟨⟨_, exec_inP2 h, hAnswer _⟩, ⟨_, exec_inP3 h, hAnswer _⟩, ⟨_, exec_inP5 h, hAnswer _⟩⟩

/-- Settles O17: the one store is of Port5 with RXRD cleared, and the byte is Port4 from before it. -/
theorem inP4ReturnsPort4AndClearsRxrd : Obligations.InP4ReturnsPort4AndClearsRxrd := by
  intro s c h
  have hStore := Ran.put (c' := c.setReg .port5 (clearRxrd c.bank.port5)) h rfl
  exact ⟨_, clearRxrd c.bank.port5, exec_inP4 h, hStore.answerByte _, rxrd_clearRxrd _,
    fun _ hk => clearRxrd_getLsbD_of_ne _ hk⟩

/-- Settles O18: both rows are the sentinel read. -/
theorem unmappedPortsReadAllOnes : Obligations.UnmappedPortsReadAllOnes := by
  intro s c a h
  exact ⟨⟨_, exec_inNullLo h a, .readSentinel h⟩, ⟨_, exec_inNullHi h a, .readSentinel h⟩⟩

/-- Settles O19: each of the four rows is the read of one accessor of the video device. -/
theorem videoPortsReturnTheDraw : Obligations.VideoPortsReturnTheDraw := by
  intro s c a h
  exact ⟨⟨_, exec_inVcnt h a, .readDevice h _⟩, ⟨_, exec_inHcnt h a, .readDevice h _⟩,
    ⟨_, exec_inVdata h a, .readDevice h _⟩, ⟨_, exec_inVstat h a, .readDevice h _⟩⟩

end Sys2Proof.Machine
end

section
/-! SUPPORT. The OUT family (41_port_write.md): the operands its decoder takes from the word, the whole effect
of every OUT on the controller it is addressed to, and the statements O26, O27, O30, O31 and O33. -/

namespace Sys2Proof

/-- Every OUT address decodes to an OUT, with the address and the value as its operands (R56, R77). -/
theorem decodeOut_operands (a v : Byte) :
    (decodeOut a v).isOut = true ∧ (decodeOut a v).outOperands = some (a, v) := by
  rcases port_low_cases a with rfl | rfl | rfl | rfl | rfl | rfl | rfl | hHigh
  on_goal 8 => rw [decodeOut_of_high a v hHigh]; split_ifs
  all_goals exact ⟨rfl, rfl⟩

/-- A word with the command code of OUT is decoded by its port and value fields (R53, R56). -/
theorem decode_of_fieldCmd_1 {w : CommandWord} (h : fieldCmd w = 0x1) :
    decode w = decodeOut (fieldA w) (fieldD w) := by
  unfold decode
  rw [h, decodeFields_1]

end Sys2Proof

namespace Sys2Proof.Machine

variable {i : Instr} {s t : State} {c : Controller}

/-! ### The write commands on the controller addressed -/

theorem exec_outP2 (h : s.find s.self = some c) (v : Byte) :
    exec (.outP2 v) s =
      if nmiEdge (c.reg .port2) v then
        .next ((s.put (c.setReg .port2 v)).nmiRequest (c.setReg .port2 v))
      else .next (s.put (c.setReg .port2 v)) :=
  onSelf_some h _

theorem exec_outP3 (h : s.find s.self = some c) (v : Byte) :
    exec (.outP3 v) s =
      if c.serial.active then .next (s.diag s.self .dg3)
      else if ton (c.reg .port5) || ron (c.reg .port5) then
        .next (s.put (c.captureByte v).beginTransfer)
      else .next (s.put (c.captureByte v)) :=
  onSelf_some h _

theorem exec_outP4 (h : s.find s.self = some c) (v : Byte) : exec (.outP4 v) s = .next s :=
  onSelf_some h _

theorem exec_outP5 (h : s.find s.self = some c) (v : Byte) :
    exec (.outP5 v) s = .next (s.put (c.writeSerialControl v)) :=
  onSelf_some h _

theorem exec_outP6 (h : s.find s.self = some c) (v : Byte) :
    exec (.outP6 v) s = .next ((s.put (c.setReg .port6 v)).call (.writeStereoRegister v)) :=
  onSelf_some h _

theorem exec_outIoctl (h : s.find s.self = some c) (a v : Byte) :
    exec (.outIoctl a v) s =
      if hcRise s.config.hcTriggerMask (c.reg .port3FHC) v = 0 then
        .next (s.put (c.writeIoctl s.config.hcTriggerMask v))
      else .next ((s.call .latchHCounter).put (c.writeIoctl s.config.hcTriggerMask v)) :=
  onSelf_some h _

theorem exec_outNullHi (h : s.find s.self = some c) (a v : Byte) :
    exec (.outNullHi a v) s = .next (s.diag s.self .dg2) :=
  onSelf_some h _

theorem forward_some (h : s.find s.self = some c) (w : DeviceCall) :
    s.forward w = .next (s.call w) :=
  onSelf_some h _

theorem forward_next {w : DeviceCall} (h : s.forward w = .next t) : t = s.call w := by
  obtain ⟨_, _, hk⟩ := onSelf_next.1 h
  exact (Host.Outcome.next.inj hk).symm

/-- An OUT that only forwards makes its one call and changes no controller (R77). -/
theorem forward_ran (h : s.find s.self = some c) (w : DeviceCall) :
    ∃ t, s.forward w = .next t ∧ Ran s t c [] [.call s.self w] :=
  ⟨_, forward_some h w, (Ran.refl h).emit _⟩

/-! ### OUT 0x03 (R81) -/

/-- OUT 0x03 makes no event, whether it is suppressed, stores, or starts a transfer. -/
theorem outP3_ran (h : s.find s.self = some c) (v : Byte) :
    ∃ t, exec (.outP3 v) s = .next t ∧ Ran s t (ownEffect (.outP3 v) s c) [] [] := by
  rw [exec_outP3 h]
  simp only [ownEffect]
  split_ifs
  · exact ⟨_, rfl, (Ran.refl h).diag _ _⟩
  · exact ⟨_, rfl, Ran.put h rfl⟩
  · exact ⟨_, rfl, Ran.put h rfl⟩

theorem ownEffect_outP3_of_active (ha : c.serial.active = true) (s : State) (v : Byte) :
    ownEffect (.outP3 v) s c = c :=
  if_pos ha

theorem ownEffect_outP3_of_idle (ha : c.serial.active = false) (s : State) (v : Byte) :
    ownEffect (.outP3 v) s c =
      if ton c.bank.port5 || ron c.bank.port5 then (c.captureByte v).beginTransfer
      else c.captureByte v :=
  if_neg (by simp [ha])

/-! ### Every OUT (R77) -/

/-- Every OUT completes and returns nothing, and only the addressed controller changes, by its own effect. -/
theorem out_ran (h : s.find s.self = some c) (hi : i.isOut = true) :
    ∃ t es, exec i s = .next t ∧ Ran s t (ownEffect i s c) [] es := by
  cases i with
  | outP0 v | outP1 v | outP5 v => exact ⟨_, _, onSelf_some h _, Ran.put h rfl⟩
  | outP2 v =>
    have hStore := Ran.put (c' := c.setReg .port2 v) h rfl
    rw [exec_outP2 h]
    split_ifs
    · exact ⟨_, _, rfl, hStore.nmiRequest _⟩
    · exact ⟨_, _, rfl, hStore⟩
  | outP3 v =>
    obtain ⟨t, hExec, hRan⟩ := outP3_ran h v
    exact ⟨t, _, hExec, hRan⟩
  | outP4 v => exact ⟨_, _, exec_outP4 h v, Ran.refl h⟩
  | outP6 v => exact ⟨_, _, exec_outP6 h v, (Ran.put (c' := c.setReg .port6 v) h rfl).emit _⟩
  | outMemctl a v | outPsg a v | outVdata a v | outVctl a v =>
    exact ⟨_, _, forward_some h _, (Ran.refl h).emit _⟩
  | outIoctl a v =>
    have hStore := Ran.put (c' := c.writeIoctl s.config.hcTriggerMask v) h rfl
    rw [exec_outIoctl h]
    split_ifs
    · exact ⟨_, _, rfl, hStore⟩
    · exact ⟨_, _, rfl, hStore.emit _⟩
  | outNullHi a v => exact ⟨_, _, exec_outNullHi h a v, (Ran.refl h).diag _ _⟩
  | _ => cases hi

/-- A command other than LINK and UNLINK keeps the addressed controller's link (R37). -/
theorem ownEffect_peer (hLink : ∀ other, i ≠ .link other) (hUnlink : i ≠ .unlink) (s : State)
    (c : Controller) : (ownEffect i s c).peer = c.peer := by
  cases i with
  | outP3 v => simp only [ownEffect]; split <;> [rfl; (split <;> rfl)]
  | advance n => simp only [ownEffect]; split <;> [(split <;> rfl); rfl]
  | receive b => simp only [ownEffect]; split <;> rfl
  | link other => exact absurd rfl (hLink other)
  | unlink => exact absurd rfl hUnlink
  | _ => rfl

/-- A command other than LINK and UNLINK keeps every controller's link, a delivery's receiver included. -/
theorem peer_kept {j : InstanceId} {d : Controller} (h : exec i s = .next t)
    (hLink : ∀ other, i ≠ .link other) (hUnlink : i ≠ .unlink) (hc : s.find j = some c)
    (hd : t.find j = some d) : d.peer = c.peer := by
  have hOwn := ownEffect_peer hLink hUnlink s c
  obtain ⟨-, rfl⟩ | ⟨-, rfl⟩ | ⟨_, _, -, -, -, -, ⟨-, rfl⟩ | ⟨-, -, rfl⟩⟩ := controller_cases h hc hd
  · exact hOwn
  · rfl
  · rfl
  · exact hOwn

/-! ### The statements -/

/-- Settles O33: the operands are the decoder's, the completion and the empty result are `out_ran`, the links
are `peer_kept`, and the calls are those of `forward` and of OUT 0x06. -/
theorem writesReturnNothingAndKeepLinks : Obligations.WritesReturnNothingAndKeepLinks := by
  refine ⟨fun w hw => ?_, fun i s hi hs => ?_, fun i s t hi h => ?_⟩
  · rw [decode_of_fieldCmd_1 hw]
    exact decodeOut_operands _ _
  · obtain ⟨c, hc⟩ := mem_ids_iff.1 hs
    obtain ⟨t, _, hExec, _⟩ := out_ran hc hi
    exact ⟨t, hExec⟩
  · obtain ⟨c, hc, _⟩ := exec_cases h
    refine ⟨?_, fun j c d => peer_kept h ?_ ?_, fun a v w hw => ?_, ?_⟩
    · obtain ⟨t', _, hExec, hRan⟩ := out_ran hc hi
      obtain rfl := Host.Outcome.next.inj (h.symm.trans hExec)
      simpa using hRan.results
    · rintro other rfl
      cases hi
    · rintro rfl
      cases hi
    · have ht : t = s.call w := by
        obtain ⟨rfl, rfl⟩ | ⟨rfl, rfl⟩ | ⟨rfl, rfl⟩ | ⟨rfl, rfl⟩ := hw <;> exact forward_next h
      exact ht ▸ ⟨rfl, rfl⟩
    · rintro v rfl
      obtain rfl := Host.Outcome.next.inj (h.symm.trans (exec_outP6 hc v))
      rfl

/-- Settles O26: the three cases of `ownEffect` at OUT 0x03; an OUT 0x05 keeps `active`. -/
theorem outP3StoresAndMayStartATransfer : Obligations.OutP3StoresAndMayStartATransfer := by
  intro s c v h
  obtain ⟨t, hExec, hRan⟩ := outP3_ran h v
  refine ⟨fun ha => ?_, fun ha => ?_, fun ha hTon hRon => ?_, fun ha hEnable => ?_⟩
  · exact ⟨_, _, exec_outP5 h v, (Ran.put (c' := c.writeSerialControl v) h rfl).own, ha⟩
  · rw [ownEffect_outP3_of_active ha] at hRan
    exact ⟨t, hExec, hRan⟩
  · have hOff : ¬(ton c.bank.port5 || ron c.bank.port5) = true :=
      Bool.eq_false_iff.1 (Bool.or_eq_false_iff.2 ⟨hTon, hRon⟩)
    rw [ownEffect_outP3_of_idle ha, if_neg hOff] at hRan
    exact ⟨t, hExec, hRan⟩
  · have hOn : (ton c.bank.port5 || ron c.bank.port5) = true := Bool.or_eq_true_iff.2 hEnable
    rw [ownEffect_outP3_of_idle ha, if_pos hOn] at hRan
    exact ⟨t, setTxfl c.bank.port5, hExec, hRan, txfl_setTxfl _,
      fun k hk => by simp [setTxfl_getLsbD, hk]⟩

/-- Settles O27: the two rows leave the state alone, up to a diagnostic. -/
theorem outP4AndOutNullHiChangeNothing : Obligations.OutP4AndOutNullHiChangeNothing := by
  intro s c a v h
  exact ⟨⟨_, exec_outP4 h v, .refl h⟩, ⟨_, exec_outNullHi h a v, (Ran.refl h).diag _ _⟩⟩

/-- Settles O30: the row is one `forward`. -/
theorem outMemctlForwards : Obligations.OutMemctlForwards :=
  fun _ _ _ _ h => forward_ran h _

/-- Settles O31: each of the three rows is one `forward`. -/
theorem outPsgVdataVctlForward : Obligations.OutPsgVdataVctlForward :=
  fun _ _ _ _ h => ⟨forward_ran h _, forward_ran h _, forward_ran h _⟩

end Sys2Proof.Machine
end

section
/-! SUPPORT. The serial machine (42_serial.md, R93): a delivery keeps the receiver's serial state, so a command
moves the addressed controller's machine alone, by its own effect; and the statement O39. -/

namespace Sys2Proof.Machine

variable {i : Instr} {s t : State} {j : InstanceId} {c d : Controller}

/-! ### The serial state of any controller after a command -/

@[simp] theorem received_serial (c : Controller) (b : Byte) : (c.received b).serial = c.serial := rfl

/-- The addressed controller's serial state is its own effect's, even where it delivers to itself. -/
theorem serial_of_self (h : exec i s = .next t) (hc : s.find s.self = some c)
    (hd : t.find s.self = some d) : d.serial = (ownEffect i s c).serial := by
  obtain ⟨-, rfl⟩ | ⟨hne, -⟩ | ⟨_, _, -, -, -, -, ⟨hne, -⟩ | ⟨-, -, rfl⟩⟩ := controller_cases h hc hd
  · rfl
  · exact absurd rfl hne
  · exact absurd rfl hne
  · exact received_serial _ _

/-- Another controller's serial state stays, even where it receives a delivery. -/
theorem serial_of_other (h : exec i s = .next t) (hj : j ≠ s.self) (hc : s.find j = some c)
    (hd : t.find j = some d) : d.serial = c.serial := by
  obtain ⟨hs, -⟩ | ⟨-, rfl⟩ | ⟨_, _, -, -, -, -, ⟨-, rfl⟩ | ⟨hs, -⟩⟩ := controller_cases h hc hd
  · exact absurd hs hj
  · rfl
  · exact received_serial _ _
  · exact absurd hs hj

/-! ### The transitions of the addressed controller's machine (R93) -/

/-- Only OUT 0x03, ADVANCE and RESET can move the machine. -/
theorem ownEffect_active_kept (hOut : ∀ v, i ≠ .outP3 v) (hAdvance : ∀ n, i ≠ .advance n)
    (hReset : i ≠ .reset) (s : State) (c : Controller) :
    (ownEffect i s c).serial.active = c.serial.active := by
  cases i with
  | outP3 v => exact absurd rfl (hOut v)
  | advance n => exact absurd rfl (hAdvance n)
  | reset => exact absurd rfl hReset
  | receive b => simp only [ownEffect]; split <;> rfl
  | link other => simp only [ownEffect]; split <;> rfl
  | _ => rfl

/-- OUT 0x03 starts a transfer on an idle controller exactly when it is enabled (R81). -/
theorem ownEffect_outP3_starts_iff (ha : c.serial.active = false) (s : State) (v : Byte) :
    (ownEffect (.outP3 v) s c).serial.active = true ↔
      ton c.bank.port5 = true ∨ ron c.bank.port5 = true := by
  rw [ownEffect_outP3_of_idle ha, ← Bool.or_eq_true]
  split_ifs with hEnable
  · exact iff_of_true rfl hEnable
  · exact iff_of_false (ha.symm ▸ Bool.false_ne_true) hEnable

/-- ADVANCE ends an active transfer exactly when it reaches 0 (R95). -/
theorem ownEffect_advance_ends_iff (ha : c.serial.active = true) (s : State) (n : BitVec 16) :
    (ownEffect (.advance n) s c).serial.active = false ↔
      c.serial.clocksRemaining ≤ (n.toNat : Int) := by
  simp only [ownEffect, ha, if_true]
  split_ifs with hReached
  · exact iff_of_true rfl hReached
  · exact iff_of_false (by simp [ha]) hReached

/-- An idle controller starts a transfer exactly in an OUT 0x03 with TON or RON set. -/
theorem ownEffect_starts_iff (ha : c.serial.active = false) (i : Instr) (s : State) :
    (ownEffect i s c).serial.active = true ↔
      ∃ v, i = .outP3 v ∧ (ton c.bank.port5 = true ∨ ron c.bank.port5 = true) := by
  cases i with
  | outP3 v => simp [ownEffect_outP3_starts_iff ha]
  | advance n => simp [ownEffect, ha]
  | reset => simp [ownEffect, Controller.afterReset]
  | _ => rw [ownEffect_active_kept (by simp) (by simp) (by simp)]; simp [ha]

/-- An active controller ends its transfer exactly in a RESET or in an ADVANCE that reaches 0. -/
theorem ownEffect_ends_iff (ha : c.serial.active = true) (i : Instr) (s : State) :
    (ownEffect i s c).serial.active = false ↔
      i = .reset ∨ ∃ n, i = .advance n ∧ c.serial.clocksRemaining ≤ (n.toNat : Int) := by
  cases i with
  | outP3 v => simp [ownEffect_outP3_of_active ha, ha]
  | advance n => simp [ownEffect_advance_ends_iff ha]
  | reset => simp [ownEffect, Controller.afterReset]
  | _ => rw [ownEffect_active_kept (by simp) (by simp) (by simp)]; simp [ha]

/-! ### The statement -/

/-- Settles O39: the addressed machine makes the transitions of its own effect, and no other machine moves. -/
theorem serialMachineMovesOnlyByItsTransitions : Obligations.SerialMachineMovesOnlyByItsTransitions := by
  refine ⟨by decide, fun i s t h => ⟨fun c d hc hd => ?_, fun j c d hj hc hd => ?_⟩⟩
  · rw [serial_of_self h hc hd]
    exact ⟨fun ha => ownEffect_starts_iff ha i s, fun ha => ownEffect_ends_iff ha i s⟩
  · rw [serial_of_other h hj hc hd]

end Sys2Proof.Machine
end

section
/-! SUPPORT. The link (43_link.md): the cross-wiring as an involution of the lines, which lines a bank drives as
output, and the statements O14 and O15. -/

namespace Sys2Proof.Machine

/-! ### The cross-wiring (R102) -/

/-- The pairs swap back, and from line 6 on `sigma` is the identity. -/
@[simp] theorem sigma_sigma (i : Nat) : sigma (sigma i) = i := by
  match i with
  | 0 | 1 | 2 | 3 | 4 | 5 => rfl
  | n + 6 => rfl

/-- The seven data lines are wired among themselves. -/
theorem sigma_lt_seven {i : Nat} (hi : i < 7) : sigma i < 7 := by
  match i, hi with
  | 0, _ | 1, _ | 2, _ | 3, _ | 4, _ | 5, _ | 6, _ => decide

/-! ### The output direction (R103) -/

variable {p : RegBank}

theorem isOutputBit_line4_of_ton (hTon : ton p.port5 = true) : isOutputBit p 4 = true :=
  if_pos ⟨rfl, hTon⟩

theorem isOutputBit_line5_of_ron (hRon : ron p.port5 = true) : isOutputBit p 5 = false := by
  unfold isOutputBit
  rw [if_neg (by simp), if_pos ⟨rfl, hRon⟩]

/-- A line that neither enable forces follows its direction bit, 1 for input. -/
theorem isOutputBit_of_unforced {j : Nat} (hTon : j = 4 → ton p.port5 = false)
    (hRon : j = 5 → ron p.port5 = false) : isOutputBit p j = !p.port2.getLsbD j := by
  have hNotOut : ¬(j = 4 ∧ ton p.port5 = true) := fun ⟨hj, h⟩ => Bool.eq_false_iff.1 (hTon hj) h
  have hNotIn : ¬(j = 5 ∧ ron p.port5 = true) := fun ⟨hj, h⟩ => Bool.eq_false_iff.1 (hRon hj) h
  unfold isOutputBit
  rw [if_neg hNotOut, if_neg hNotIn]

/-! ### The statements -/

/-- Settles O14: the table is `sigma` itself, and bit 7 is 0 by the bits of the merge and of the mask. -/
theorem sigmaSwapsTheLinePairs : Obligations.SigmaSwapsTheLinePairs := by
  refine ⟨by decide, fun i hi => ⟨sigma_lt_seven hi, sigma_sigma i⟩, fun p v => ⟨?_, ?_⟩⟩
  · rw [padMerge_getLsbD]
    simp
  · rw [padMask_getLsbD]
    simp

/-- Settles O15: TON forces line 4, RON forces line 5, and no other line is forced. -/
theorem outputDirectionFollowsPort2AndPort5 : Obligations.OutputDirectionFollowsPort2AndPort5 := by
  intro p
  refine ⟨isOutputBit_line4_of_ton, fun hTon => ?_, isOutputBit_line5_of_ron, fun hRon => ?_,
    fun j _ h4 h5 => ?_⟩
  · exact isOutputBit_of_unforced (fun _ => hTon) (by simp)
  · exact isOutputBit_of_unforced (by simp) (fun _ => hRon)
  · exact isOutputBit_of_unforced (absurd · h4) (absurd · h5)

end Sys2Proof.Machine
end

section
/-! SUPPORT. Persistence (44_persistence.md): SAVE on the controller it is addressed to, and the statement
O46. -/

namespace Sys2Proof.Machine

variable {s : State} {c : Controller}

/-- SAVE only answers, with the two shadow registers as they are held (R110). -/
theorem exec_save (h : s.find s.self = some c) :
    exec .save s = .next (s.answer (.pair s.self c.bank.port3F c.bank.port3FHC)) :=
  onSelf_some h _

/-! ### The statement -/

/-- Settles O46: SAVE is one answer on an unchanged state, whether or not a transfer is active. -/
theorem saveReturnsTheShadows : Obligations.SaveReturnsTheShadows :=
  fun _ _ h => ⟨_, exec_save h, (Ran.refl h).answer _⟩

end Sys2Proof.Machine
end

section
/-! SUPPORT. The encoding (30_encoding.md): the command a word's fields spell, with the fields it ignores; the
addresses of each port row; the rows of the opcode table; and the statements O1 to O8. -/

namespace Sys2Proof

/-! ### The port rows (R55, R56) -/

/-- Above the six single addresses, what decoding an IN address depends on (R55). -/
theorem decodeIn_of_high (a : Byte) (h : 5 < a.toNat) :
    decodeIn a =
      if portRange a = 0 then .inNullLo a
      else if portRange a = 1 then (if portOdd a then .inHcnt a else .inVcnt a)
      else if portRange a = 2 then (if portOdd a then .inVstat a else .inVdata a)
      else if a = 0xC0 then .inC0
      else if a = 0xDC then .inDC
      else if a = 0xC1 then .inC1
      else if a = 0xDD then .inDD
      else .inNullHi a := by
  have hn : ∀ b : Byte, b.toNat ≤ 5 → a ≠ b := by
    rintro b hb rfl
    omega
  simp [decodeIn, hn]

/-- The last of the four ranges (R54). -/
theorem portRange_eq_three {a : Byte} (h0 : portRange a ≠ 0) (h1 : portRange a ≠ 1)
    (h2 : portRange a ≠ 2) : portRange a = 3 := by
  revert h0 h1 h2
  generalize portRange a = x
  revert x
  decide

/-- An IN address decodes to a well-formed IN of that address, whatever `D` holds. -/
theorem decodeIn_spec (a : Byte) :
    (decodeIn a).wf = true ∧ encodeFields (decodeIn a) = (0x0, a, 0) ∧
      ignoredBits (decodeIn a) = 0x000FF := by
  rcases port_low_cases a with rfl | rfl | rfl | rfl | rfl | rfl | rfl | hHigh
  on_goal 8 =>
    rw [decodeIn_of_high a (by omega)]
    split_ifs with h0 h1 hOdd h2 hOdd hC0 hDC hC1 hDD
    · exact ⟨by simpa [Instr.wf, h0] using hHigh.le, rfl, rfl⟩
    · exact ⟨by simp [Instr.wf, h1, hOdd], rfl, rfl⟩
    · exact ⟨by simp [Instr.wf, h1, hOdd], rfl, rfl⟩
    · exact ⟨by simp [Instr.wf, h2, hOdd], rfl, rfl⟩
    · exact ⟨by simp [Instr.wf, h2, hOdd], rfl, rfl⟩
    · exact ⟨rfl, hC0 ▸ rfl, rfl⟩
    · exact ⟨rfl, hDC ▸ rfl, rfl⟩
    · exact ⟨rfl, hC1 ▸ rfl, rfl⟩
    · exact ⟨rfl, hDD ▸ rfl, rfl⟩
    · have hFree : ((a ≠ 0xC0 ∧ a ≠ 0xC1) ∧ a ≠ 0xDC) ∧ a ≠ 0xDD := ⟨⟨⟨hC0, hC1⟩, hDC⟩, hDD⟩
      exact ⟨by simpa [Instr.wf, isInputPort, portRange_eq_three h0 h1 h2] using hFree, rfl, rfl⟩
  all_goals exact ⟨rfl, rfl, rfl⟩

/-- An OUT address decodes to a well-formed OUT of that address with the value. -/
theorem decodeOut_spec (a v : Byte) :
    (decodeOut a v).wf = true ∧ encodeFields (decodeOut a v) = (0x1, a, v) ∧
      ignoredBits (decodeOut a v) = 0 := by
  rcases port_low_cases a with rfl | rfl | rfl | rfl | rfl | rfl | rfl | hHigh
  on_goal 8 =>
    rw [decodeOut_of_high a v hHigh]
    obtain ⟨-, -, -, -, hParity⟩ := port_facts a
    split_ifs with h0 hOdd h1 h2 hOdd
    · exact ⟨by simpa [Instr.wf, h0, hOdd] using Nat.succ_le_of_lt hHigh, rfl, rfl⟩
    · have hEven : a.toNat % 2 ≠ 1 := mt hParity.2 hOdd
      have hLow : 8 ≤ a.toNat := by omega
      exact ⟨by simpa [Instr.wf, h0, hOdd] using hLow, rfl, rfl⟩
    · exact ⟨by simp [Instr.wf, h1], rfl, rfl⟩
    · exact ⟨by simp [Instr.wf, h2, hOdd], rfl, rfl⟩
    · exact ⟨by simp [Instr.wf, h2, hOdd], rfl, rfl⟩
    · exact ⟨by simp [Instr.wf, portRange_eq_three h0 h1 h2], rfl, rfl⟩
  all_goals exact ⟨rfl, rfl, rfl⟩


/-- An address outside the first range is above the single addresses of both families. -/
theorem six_lt_of_portRange {a : Byte} (h : portRange a ≠ 0) : 6 < a.toNat := by
  obtain ⟨hRange, -⟩ := port_facts a
  have := mt hRange.2 h
  omega

/-! ### Decoding an encoded command -/

/-- A value of more than two bytes is its top and its two low bytes, joined. -/
theorem top_bytes_append {n : Nat} (r : BitVec (n + 8 + 8)) :
    r.extractLsb' 16 n ++ r.extractLsb' 8 8 ++ r.extractLsb' 0 8 = r := by
  apply BitVec.eq_of_getLsbD_eq
  intro i hi
  by_cases h : i < 8
  · simp [BitVec.getLsbD_append, h]
  · by_cases h' : i < 16
    · simp [BitVec.getLsbD_append, h, show i - 8 < 8 by omega, show 8 + (i - 8) = i by omega]
    · simp [BitVec.getLsbD_append, h, show ¬ i - 8 < 8 by omega, show i - 8 - 8 < n by omega,
        show 16 + (i - 8 - 8) = i by omega]

theorem decodeFields_reservedAB (x : BitVec 1) (a d : Byte) :
    decodeFields ((0b101 : BitVec 3) ++ x) a d = .reservedAB (x ++ a ++ d) := by
  obtain rfl | rfl : x = 0 ∨ x = 1 := by revert x; decide
  · rfl
  · rfl

theorem decodeFields_reservedCF (x : BitVec 2) (a d : Byte) :
    decodeFields ((0b11 : BitVec 2) ++ x) a d = .reservedCF (x ++ a ++ d) := by
  obtain rfl | rfl | rfl | rfl : x = 0 ∨ x = 1 ∨ x = 2 ∨ x = 3 := by revert x; decide
  · rfl
  · rfl
  · rfl
  · rfl

/-- Settles O1: a row of several addresses is found by the range and the parity of its address, every other
row by its code; the operands are read back from the fields. -/
theorem everyCommandDecodesFromItsEncoding : Obligations.EveryCommandDecodesFromItsEncoding := by
  intro i hWf
  rw [decode_encode_eq]
  cases i with
  | inNullLo a =>
    obtain ⟨hRange, hLow⟩ : portRange a = 0 ∧ 6 ≤ a.toNat := by simpa [Instr.wf] using hWf
    exact (decodeIn_of_high a hLow).trans (if_pos hRange)
  | inVcnt a | inHcnt a =>
    obtain ⟨hRange, hOdd⟩ : portRange a = 1 ∧ _ := by simpa [Instr.wf] using hWf
    have hHigh := six_lt_of_portRange (a := a) (by simp [hRange])
    exact (decodeIn_of_high a (by omega)).trans (by simp [hRange, hOdd])
  | inVdata a | inVstat a =>
    obtain ⟨hRange, hOdd⟩ : portRange a = 2 ∧ _ := by simpa [Instr.wf] using hWf
    have hHigh := six_lt_of_portRange (a := a) (by simp [hRange])
    exact (decodeIn_of_high a (by omega)).trans (by simp [hRange, hOdd])
  | inNullHi a =>
    obtain ⟨hRange, ⟨⟨hC0, hC1⟩, hDC⟩, hDD⟩ : portRange a = 3 ∧ _ := by
      simpa [Instr.wf, isInputPort] using hWf
    have hHigh := six_lt_of_portRange (a := a) (by simp [hRange])
    exact (decodeIn_of_high a (by omega)).trans (by simp [hRange, hC0, hC1, hDC, hDD])
  | outMemctl a v | outIoctl a v =>
    obtain ⟨⟨hRange, hOdd⟩, hLow⟩ : (portRange a = 0 ∧ _) ∧ _ := by simpa [Instr.wf] using hWf
    exact (decodeOut_of_high a v (by omega)).trans (by simp [hRange, hOdd])
  | outPsg a v =>
    have hRange : portRange a = 1 := by simpa [Instr.wf] using hWf
    have hHigh := six_lt_of_portRange (a := a) (by simp [hRange])
    exact (decodeOut_of_high a v hHigh).trans (by simp [hRange])
  | outNullHi a v =>
    have hRange : portRange a = 3 := by simpa [Instr.wf] using hWf
    have hHigh := six_lt_of_portRange (a := a) (by simp [hRange])
    exact (decodeOut_of_high a v hHigh).trans (by simp [hRange])
  | outVdata a v | outVctl a v =>
    obtain ⟨hRange, hOdd⟩ : portRange a = 2 ∧ _ := by simpa [Instr.wf] using hWf
    have hHigh := six_lt_of_portRange (a := a) (by simp [hRange])
    exact (decodeOut_of_high a v hHigh).trans (by simp [hRange, hOdd])
  | advance n => exact congrArg Instr.advance (bytes_append n)
  | link other => exact if_pos (show portOdd 0x01 = true by decide)
  | baud x => exact congrArg Instr.baud BitVec.extractLsb'_append_eq_right
  | reserved9 r => exact congrArg Instr.reserved9 (bytes_append r)
  | reservedAB r =>
    exact (decodeFields_reservedAB _ _ _).trans (congrArg Instr.reservedAB (top_bytes_append r))
  | reservedCF r =>
    exact (decodeFields_reservedCF _ _ _).trans (congrArg Instr.reservedCF (top_bytes_append r))
  | _ => rfl

/-! ### Encoding a decoded word -/

/-- The ten single codes, and the two reserved groups (R53, R58). -/
theorem cmd_row_cases (c : BitVec 4) :
    c = 0x0 ∨ c = 0x1 ∨ c = 0x2 ∨ c = 0x3 ∨ c = 0x4 ∨ c = 0x5 ∨ c = 0x6 ∨ c = 0x7 ∨ c = 0x8 ∨ c = 0x9 ∨
      (∃ x : BitVec 1, c = (0b101 : BitVec 3) ++ x) ∨ (∃ x : BitVec 2, c = (0b11 : BitVec 2) ++ x) := by
  revert c
  decide

theorem packWord_not (c : BitVec 4) (a d : Byte) :
    ~~~(packWord c a d) = packWord (~~~c) (~~~a) (~~~d) := by
  apply BitVec.eq_of_getLsbD_eq
  intro i hi
  simp only [BitVec.getLsbD_not, packWord_getLsbD, hi, decide_true, Bool.true_and]
  split_ifs with h8 h16
  · simp [h8]
  · simp [show i - 8 < 8 by omega]
  · simp [show i - 16 < 4 by omega]

theorem packWord_xor (c c' : BitVec 4) (a a' d d' : Byte) :
    packWord c a d ^^^ packWord c' a' d' = packWord (c ^^^ c') (a ^^^ a') (d ^^^ d') := by
  apply BitVec.eq_of_getLsbD_eq
  intro i hi
  simp only [BitVec.getLsbD_xor, packWord_getLsbD]
  split
  · rfl
  · split <;> rfl

/-- The parity of a port address as a mask. -/
theorem and_one_of_portOdd (a : Byte) : a &&& 0x01 = if portOdd a then 0x01 else 0x00 := by
  revert a
  decide

/-- The low two bits of a byte, as a mask and as a field. -/
theorem zero_append_low_bits (d : Byte) : (0 : BitVec 6) ++ d.extractLsb' 0 2 = d &&& 0x03 := by
  revert d
  decide

/-- The fields of a value of more than two bytes. -/
theorem top_bytes_fields {n : Nat} (x : BitVec n) (a d : Byte) :
    (x ++ a ++ d).extractLsb' 16 n = x ∧ (x ++ a ++ d).extractLsb' 8 8 = a ∧
      (x ++ a ++ d).extractLsb' 0 8 = d := by
  refine ⟨?_, ?_, BitVec.extractLsb'_append_eq_right⟩
  · apply BitVec.eq_of_getLsbD_eq
    intro i hi
    simp [BitVec.getLsbD_append, hi, show ¬ 16 + i < 8 by omega, show ¬ 16 + i - 8 < 8 by omega,
      show 16 + i - 8 - 8 = i by omega]
  · apply BitVec.eq_of_getLsbD_eq
    intro i hi
    simp [BitVec.getLsbD_append, hi]

/-- `i` is the command of a word with the fields `c`, `a`, `d`, and the bits of `ma` and `md` in `A` and `D`
are the ones it ignores: its encoding has them cleared, and they may hold any value (R54). -/
structure Spells (i : Instr) (c : BitVec 4) (a d ma md : Byte) : Prop where
  wf : i.wf = true
  ignored : ignoredBits i = packWord 0 ma md
  fields : encodeFields i = (c, a &&& ~~~ma, d &&& ~~~md)
  stable : ∀ x y : Byte, decodeFields c (a ^^^ (x &&& ma)) (d ^^^ (y &&& md)) = i

theorem clear_none (v : Byte) : v &&& ~~~(0x00 : Byte) = v := BitVec.and_allOnes

theorem clear_all (v : Byte) : v &&& ~~~(0xFF : Byte) = 0x00 := BitVec.and_zero

theorem flip_none (v x : Byte) : v ^^^ (x &&& 0x00) = v := by simp

/-- A command that ignores no bit of its word. -/
theorem Spells.of_full {i : Instr} {c : BitVec 4} {a d : Byte} (hWf : i.wf = true)
    (hIgnored : ignoredBits i = 0) (hFields : encodeFields i = (c, a, d)) (hDecode : decodeFields c a d = i) :
    Spells i c a d 0x00 0x00 := by
  refine ⟨hWf, hIgnored, ?_, fun x y => ?_⟩
  · rw [clear_none, clear_none, hFields]
  · rw [flip_none, flip_none, hDecode]

theorem portOdd_flip_high (a x : Byte) : portOdd (a ^^^ (x &&& 0xFE)) = portOdd a := by
  simp [portOdd]

theorem low_bits_flip_high (d y : Byte) :
    (d ^^^ (y &&& 0xFC)).extractLsb' 0 2 = d.extractLsb' 0 2 := by
  simp [BitVec.extractLsb'_xor, BitVec.extractLsb'_and]

/-- Command code 0x5: bit 0 of `A` selects LINK or UNLINK (R57). -/
theorem spells_link_or_unlink (a d : Byte) :
    ∃ ma md, Spells (decodeFields 0x5 a d) 0x5 a d ma md := by
  have hBit : a &&& ~~~(0xFE : Byte) = if portOdd a then 0x01 else 0x00 := and_one_of_portOdd a
  rw [decodeFields_5]
  split_ifs at hBit ⊢ with hOdd
  · refine ⟨0xFE, 0x00, rfl, rfl, by rw [encodeFields, hBit, clear_none], fun x y => ?_⟩
    rw [decodeFields_5, portOdd_flip_high, flip_none, if_pos hOdd]
  · refine ⟨0xFE, 0xFF, rfl, rfl, by rw [encodeFields, hBit, clear_all], fun x y => ?_⟩
    rw [decodeFields_5, portOdd_flip_high, if_neg hOdd]

/-- Every word spells a command (R52, R53, R54, R58). -/
theorem exists_spells (c : BitVec 4) (a d : Byte) : ∃ ma md, Spells (decodeFields c a d) c a d ma md := by
  rcases cmd_row_cases c with
    rfl | rfl | rfl | rfl | rfl | rfl | rfl | rfl | rfl | rfl | ⟨x, rfl⟩ | ⟨x, rfl⟩
  · obtain ⟨hWf, hFields, hIgnored⟩ := decodeIn_spec a
    refine ⟨0x00, 0xFF, hWf, hIgnored, ?_, fun x y => ?_⟩
    · rw [decodeFields_0, hFields, clear_none, clear_all]
    · rw [flip_none, decodeFields_0, decodeFields_0]
  · obtain ⟨hWf, hFields, hIgnored⟩ := decodeOut_spec a d
    exact ⟨_, _, .of_full hWf hIgnored hFields rfl⟩
  · rw [decodeFields_2]
    exact ⟨_, _, .of_full rfl rfl (by rw [encodeFields, bytes_high, bytes_low]) rfl⟩
  · rw [decodeFields_3]
    refine ⟨0xFF, 0x00, rfl, rfl, by rw [encodeFields, clear_all, clear_none], fun x y => ?_⟩
    rw [decodeFields_3, flip_none]
  · exact ⟨0xFF, 0xFF, rfl, rfl, by rw [clear_all, clear_all]; rfl, fun _ _ => rfl⟩
  · exact spells_link_or_unlink a d
  · exact ⟨0xFF, 0xFF, rfl, rfl, by rw [clear_all, clear_all]; rfl, fun _ _ => rfl⟩
  · rw [decodeFields_7]
    exact ⟨_, _, .of_full rfl rfl rfl rfl⟩
  · rw [decodeFields_8]
    refine ⟨0xFF, 0xFC, rfl, rfl, ?_, fun x y => ?_⟩
    · rw [encodeFields, zero_append_low_bits, clear_all]; rfl
    · rw [decodeFields_8, low_bits_flip_high]
  · rw [decodeFields_9]
    exact ⟨_, _, .of_full rfl rfl (by rw [encodeFields, bytes_high, bytes_low]) rfl⟩
  · obtain ⟨hTop, hHigh, hLow⟩ := top_bytes_fields x a d
    rw [decodeFields_reservedAB]
    exact ⟨_, _, .of_full rfl rfl (by rw [encodeFields, hTop, hHigh, hLow]) (decodeFields_reservedAB x a d)⟩
  · obtain ⟨hTop, hHigh, hLow⟩ := top_bytes_fields x a d
    rw [decodeFields_reservedCF]
    exact ⟨_, _, .of_full rfl rfl (by rw [encodeFields, hTop, hHigh, hLow]) (decodeFields_reservedCF x a d)⟩

/-- Every word is a code with two bytes (R52), so it spells a command. -/
theorem decode_spells (w : CommandWord) :
    ∃ c a d ma md, w = packWord c a d ∧ Spells (decode w) c a d ma md := by
  obtain ⟨ma, md, h⟩ := exists_spells (fieldCmd w) (fieldA w) (fieldD w)
  exact ⟨_, _, _, ma, md, (packWord_fields w).symm, h⟩

/-- Settles O2: the fields of the encoding are the word's, masked, and so is the word. -/
theorem everyWordIsItsCommandUpToIgnoredBits : Obligations.EveryWordIsItsCommandUpToIgnoredBits := by
  intro w
  obtain ⟨c, a, d, ma, md, hw, h⟩ := decode_spells w
  refine ⟨h.wf, ?_⟩
  calc encode (decode w) = packWord c (a &&& ~~~ma) (d &&& ~~~md) := by rw [encode, h.fields]
    _ = packWord c a d &&& ~~~(packWord 0 ma md) := by
      rw [packWord_not, packWord_and, show c &&& ~~~(0 : BitVec 4) = c from BitVec.and_allOnes]
    _ = w &&& ~~~(ignoredBits (decode w)) := by rw [h.ignored, ← hw]

/-- Settles O3: the change falls on the ignored fields alone, which may hold any value. -/
theorem ignoredBitsDoNotChangeTheCommand : Obligations.IgnoredBitsDoNotChangeTheCommand := by
  intro w x
  obtain ⟨c, a, d, ma, md, hw, h⟩ := decode_spells w
  have hFlip : w ^^^ (x &&& packWord 0 ma md) =
      packWord c (a ^^^ (fieldA x &&& ma)) (d ^^^ (fieldD x &&& md)) := by
    conv_lhs => rw [hw, ← packWord_fields x, packWord_and, packWord_xor]
    simp
  rw [h.ignored, hFlip, decode_packWord, h.stable]

/-! ### The rows of a port address (R55, R56) -/

/-- An IN address decodes to a command exactly if it is the command's port and one its row takes. -/
theorem decodeIn_eq_iff {i : Instr} {a : Byte} :
    decodeIn a = i ↔ i.wf = true ∧ encodeFields i = (0x0, a, 0) := by
  constructor
  · rintro rfl
    obtain ⟨hWf, hFields, -⟩ := decodeIn_spec a
    exact ⟨hWf, hFields⟩
  · rintro ⟨hWf, hFields⟩
    have := everyCommandDecodesFromItsEncoding i hWf
    rwa [decode_encode_eq, hFields] at this

/-- An OUT address with a value decodes to a command exactly if they are the command's operands and the
address is one its row takes. -/
theorem decodeOut_eq_iff {i : Instr} {a v : Byte} :
    decodeOut a v = i ↔ i.wf = true ∧ encodeFields i = (0x1, a, v) := by
  constructor
  · rintro rfl
    obtain ⟨hWf, hFields, -⟩ := decodeOut_spec a v
    exact ⟨hWf, hFields⟩
  · rintro ⟨hWf, hFields⟩
    have := everyCommandDecodesFromItsEncoding i hWf
    rwa [decode_encode_eq, hFields] at this

/-- The parity of an even port address as a number. -/
theorem portOdd_eq_false_iff (a : Byte) : portOdd a = false ↔ a.toNat % 2 = 0 := by
  obtain ⟨-, -, -, -, hOdd⟩ := port_facts a
  rw [← Bool.not_eq_true, hOdd]
  omega

/-- Settles O5: a row takes the addresses at which its command is well-formed. -/
theorem inPortsSelectTheirRows : Obligations.InPortsSelectTheirRows := by
  intro a d
  obtain ⟨h0, h1, h2, h3, hOdd⟩ := port_facts a
  have hEven := portOdd_eq_false_iff a
  rw [decode_packWord, decodeFields_0]
  simp only [decodeIn_eq_iff, Instr.wf, encodeFields, Bool.and_eq_true, beq_iff_eq, decide_eq_true_eq,
    Bool.not_eq_true', Prod.mk.injEq, and_true, true_and, h0, h1, h2, h3, hOdd, hEven]
  refine ⟨eq_comm, eq_comm, eq_comm, eq_comm, eq_comm, eq_comm, and_comm, and_assoc, and_assoc, and_assoc,
    and_assoc, eq_comm, eq_comm, eq_comm, eq_comm, ?_⟩
  simp [isInputPort, and_assoc]

/-- Settles O6: a row takes the addresses at which its command is well-formed. -/
theorem outPortsSelectTheirRows : Obligations.OutPortsSelectTheirRows := by
  intro a v
  obtain ⟨h0, h1, h2, h3, hOdd⟩ := port_facts a
  have hEven := portOdd_eq_false_iff a
  rw [decode_packWord, decodeFields_1]
  simp only [decodeOut_eq_iff, Instr.wf, encodeFields, Bool.and_eq_true, beq_iff_eq, decide_eq_true_eq,
    Bool.not_eq_true', Prod.mk.injEq, and_true, true_and, h0, h1, h2, h3, hOdd, hEven]
  refine ⟨eq_comm, eq_comm, eq_comm, eq_comm, eq_comm, eq_comm, eq_comm, ?_, ?_, and_assoc, and_assoc⟩
  all_goals omega

/-! ### The opcode table -/

/-- A row fits a word field by field. -/
theorem fits_iff_fields (w mask pattern : CommandWord) :
    (w &&& mask == pattern) = (fieldCmd w &&& fieldCmd mask == fieldCmd pattern &&
      (fieldA w &&& fieldA mask == fieldA pattern && fieldD w &&& fieldD mask == fieldD pattern)) := by
  conv_lhs => rw [← packWord_fields w, ← packWord_fields mask, ← packWord_fields pattern, packWord_and]
  rw [Bool.eq_iff_iff]
  simp [packWord_inj]

/-- No row of the table reads `D`. -/
theorem opcodeRows_ignore_fieldD : ∀ r ∈ opcodeRows, fieldD r.mask = 0 := by decide

/-- The row a word takes depends on `A` only through the rows of its code. -/
theorem firstRow_packWord_congr {c : BitVec 4} {a a' : Byte} (d d' : Byte)
    (h : ∀ r ∈ opcodeRows, c &&& fieldCmd r.mask = fieldCmd r.pattern →
      a &&& fieldA r.mask = a' &&& fieldA r.mask) :
    firstRow (packWord c a d) = firstRow (packWord c a' d') := by
  have hFits : ∀ r ∈ opcodeRows,
      (packWord c a d &&& r.mask == r.pattern) = (packWord c a' d' &&& r.mask == r.pattern) := by
    intro r hr
    have hD (v : Byte) : v &&& fieldD r.mask = 0 := by
      rw [opcodeRows_ignore_fieldD r hr]
      exact BitVec.and_zero
    simp only [fits_iff_fields, fieldCmd_packWord, fieldA_packWord, fieldD_packWord, hD]
    by_cases hCode : c &&& fieldCmd r.mask = fieldCmd r.pattern
    · rw [h r hr hCode]
    · rw [beq_false_of_ne hCode, Bool.false_and, Bool.false_and]
  unfold firstRow
  rw [List.find?_congr hFits]

theorem firstRow_in (a d : Byte) : firstRow (packWord 0x0 a d) = some (decodeIn a).row := by
  rw [firstRow_packWord_congr d 0 fun _ _ _ => rfl]
  revert a
  decide

/-- The value of an OUT does not choose its row. -/
theorem row_decodeOut (a v : Byte) : (decodeOut a v).row = (decodeOut a 0).row := by
  rcases port_low_cases a with rfl | rfl | rfl | rfl | rfl | rfl | rfl | hHigh
  on_goal 8 => rw [decodeOut_of_high a v hHigh, decodeOut_of_high a 0 hHigh]; split_ifs
  all_goals rfl

theorem firstRow_out (a v : Byte) : firstRow (packWord 0x1 a v) = some (decodeOut a v).row := by
  rw [firstRow_packWord_congr v 0 fun _ _ _ => rfl, row_decodeOut]
  revert a
  decide

theorem firstRow_link_or_unlink (a d : Byte) :
    firstRow (packWord 0x5 a d) = some (if portOdd a then 33 else 34) := by
  rw [firstRow_packWord_congr d 0 fun _ _ _ => rfl]
  revert a
  decide

/-- The row of a code that alone chooses the command. -/
theorem firstRow_of_code {c : BitVec 4} (a d : Byte)
    (h : ∀ r ∈ opcodeRows, c &&& fieldCmd r.mask = fieldCmd r.pattern → fieldA r.mask = 0) :
    firstRow (packWord c a d) = firstRow (packWord c 0 0) :=
  firstRow_packWord_congr d 0 fun r hr hCode => by
    rw [h r hr hCode]
    exact BitVec.and_zero.trans BitVec.and_zero.symm

/-- Settles O4: the table is read by the code, for IN, OUT, LINK and UNLINK also by the port address. -/
theorem everyWordTakesTheFirstTableRow : Obligations.EveryWordTakesTheFirstTableRow := by
  intro w
  rw [← packWord_fields w, decode_packWord]
  generalize fieldCmd w = c, fieldA w = a, fieldD w = d
  rcases cmd_cases c with rfl | rfl | rfl | rfl | rfl | rfl | rfl | rfl | rfl | rfl | rfl | rfl | rfl | rfl |
    rfl | rfl
  · exact firstRow_in a d
  · exact firstRow_out a d
  on_goal 4 => rw [firstRow_link_or_unlink, decodeFields_5, apply_ite Instr.row]; rfl
  all_goals
    rw [firstRow_of_code a d (by decide)]
    simp only [decodeFields_2, decodeFields_3, decodeFields_4, decodeFields_6, decodeFields_7, decodeFields_8,
      decodeFields_9, decodeFields_A, decodeFields_B, decodeFields_C, decodeFields_D, decodeFields_E,
      decodeFields_F, Instr.row]
    decide

/-! ### Sample words and the reserved codes -/

/-- Settles O7: each word is decoded by evaluation. -/
theorem sampleWordsDecode : Obligations.SampleWordsDecode := by
  unfold Obligations.SampleWordsDecode
  decide

/-- The reserved rows are those whose code is 0x9 or above (R58). -/
theorem isReserved_iff_code (i : Instr) : i.isReserved = true ↔ 9 ≤ (encodeFields i).1.toNat := by
  have hAB (x : BitVec 1) : 9 ≤ ((0b101 : BitVec 3) ++ x).toNat := by revert x; decide
  have hCF (x : BitVec 2) : 9 ≤ ((0b11 : BitVec 2) ++ x).toNat := by revert x; decide
  cases i with
  | reservedAB r => exact iff_of_true rfl (hAB _)
  | reservedCF r => exact iff_of_true rfl (hCF _)
  | _ => simp [Instr.isReserved, encodeFields]

theorem exec_of_isReserved {i : Instr} (h : i.isReserved = true) (s : Machine.State) :
    Machine.exec i s = .refused .reservedCommand := by
  cases i with
  | reserved9 r | reservedAB r | reservedCF r => rfl
  | _ => cases h

/-- Settles O8: a command's code is its word's, and the reserved rows are those of the codes from 0x9 on. -/
theorem reservedCodesAreRefused : Obligations.ReservedCodesAreRefused := by
  have hIff (w : CommandWord) : (decode w).isReserved = true ↔ 9 ≤ (fieldCmd w).toNat := by
    obtain ⟨c, a, d, ma, md, hw, h⟩ := decode_spells w
    rw [isReserved_iff_code, h.fields, hw, fieldCmd_packWord]
  exact ⟨hIff, fun s w hw => exec_of_isReserved ((hIff w).2 hw) s, fun _ _ => rfl, fun _ _ => rfl,
    fun _ _ => rfl⟩

end Sys2Proof
end

section
/-! SUPPORT. What every command keeps of the configuration, the links and the serial state, and the invariant
of the whole machine: the statements O9, O10, O40, O45, O50 and O51. -/

namespace Sys2Proof.Machine

variable {i : Instr} {s t : State} {j : InstanceId} {c d : Controller}

/-! ### The step (R9, R46) -/

/-- Settles O9: the oldest issue is fetched with its target and its draw; with none there is no fetch. -/
theorem stepRunsTheOldestIssue : Obligations.StepRunsTheOldestIssue := by
  constructor
  · intro s c rest h
    simp [step, State.fetch, h]
  · intro s h
    simp [step, State.fetch, h]

/-- A step either moves nothing or runs a command on the state with its issue taken. -/
theorem step_next (h : step s = .next t) :
    t = s ∨ ∃ i s', exec i s' = .next t ∧ s'.config = s.config ∧ s'.controllers = s.controllers := by
  obtain ⟨hRun, hIdle⟩ := stepRunsTheOldestIssue
  cases hp : s.pending with
  | nil => exact .inl (Host.Outcome.next.inj ((hIdle s hp).symm.trans h)).symm
  | cons c rest => exact .inr ⟨_, _, (hRun s c rest hp).symm.trans h, rfl, rfl⟩

/-- Settles O10: each case of `exec_cases` has the inputs kept in its frame. -/
theorem commandsKeepConfigurationAndInputs : Obligations.CommandsKeepConfigurationAndInputs := by
  intro i s t h
  obtain ⟨c, -, ⟨_, _, hRan⟩ | ⟨_, _, _, _, -, -, -, hRan⟩ | ⟨_, _, _, -, -, hRan⟩⟩ := exec_cases h
  · exact hRan.kept
  · exact hRan.kept
  · exact hRan.kept

/-! ### Links (R37) -/

/-- Only an ADVANCE delivers: under any other command a controller has its own effect or stays. -/
theorem effect_of_not_advance (hAdvance : ∀ n, i ≠ .advance n) (h : exec i s = .next t)
    (hc : s.find j = some c) (hd : t.find j = some d) :
    (j = s.self ∧ d = ownEffect i s c) ∨ (j ≠ s.self ∧ d = c) := by
  obtain hOwn | hOther | ⟨n, _, rfl, -⟩ := controller_cases h hc hd
  · exact .inl hOwn
  · exact .inr hOther
  · exact absurd rfl (hAdvance n)

theorem exec_link (h : s.find s.self = some c) (other : InstanceId) :
    exec (.link other) s =
      if other = s.self then .next (s.diag s.self .dg5)
      else if other ∈ s.ids then .next (s.put { c with peer := some other })
      else .refused .unknownPeer :=
  onSelf_some h _

/-- A LINK that completes names an identifier of `INSTANCES`. -/
theorem link_mem_ids {other : InstanceId} (h : exec (.link other) s = .next t) : other ∈ s.ids := by
  obtain ⟨c, hc, -⟩ := onSelf_next.1 h
  rw [exec_link hc] at h
  split_ifs at h with hSelf hMem
  · exact mem_ids_iff.2 ⟨c, hSelf ▸ hc⟩
  · exact hMem

/-- Settles O45: by `peer_kept` only LINK and UNLINK are left, each with its own effect. -/
theorem linksChangeOnlyByLinkAndUnlink : Obligations.LinksChangeOnlyByLinkAndUnlink := by
  intro i s t j c d h hc hd hne
  cases i with
  | unlink =>
    obtain ⟨hj, rfl⟩ | ⟨-, rfl⟩ := effect_of_not_advance (by simp) h hc hd
    · exact ⟨hj, .inl ⟨rfl, rfl⟩⟩
    · exact absurd rfl hne
  | link other =>
    obtain ⟨hj, rfl⟩ | ⟨-, rfl⟩ := effect_of_not_advance (by simp) h hc hd
    · simp only [ownEffect] at hne ⊢
      split_ifs at hne ⊢ with hSelf
      · exact absurd rfl hne
      · exact ⟨hj, .inr ⟨other, rfl, hSelf, link_mem_ids h, rfl⟩⟩
    · exact absurd rfl hne
  | _ => exact absurd (peer_kept h (by simp) (by simp) hc hd) hne

/-! ### The serial fields (R35) -/

/-- The commands that are no writer of R35's table keep the serial state. -/
theorem ownEffect_serial_kept (hP3 : ∀ v, i ≠ .outP3 v) (hP5 : ∀ v, i ≠ .outP5 v)
    (hAdvance : ∀ n, i ≠ .advance n) (hBaud : ∀ x, i ≠ .baud x) (hReset : i ≠ .reset) (s : State)
    (c : Controller) : (ownEffect i s c).serial = c.serial := by
  cases i with
  | outP3 v => exact absurd rfl (hP3 v)
  | outP5 v => exact absurd rfl (hP5 v)
  | advance n => exact absurd rfl (hAdvance n)
  | baud x => exact absurd rfl (hBaud x)
  | reset => exact absurd rfl hReset
  | receive b => simp only [ownEffect]; split <;> rfl
  | link other => simp only [ownEffect]; split <;> rfl
  | _ => rfl

/-- OUT 0x03 keeps the rate. -/
theorem ownEffect_outP3_baudRate (s : State) (c : Controller) (v : Byte) :
    (ownEffect (.outP3 v) s c).serial.baudRate = c.serial.baudRate := by
  simp only [ownEffect]
  split_ifs <;> rfl

/-- ADVANCE moves the activity and the count of an active controller, and nothing else. -/
theorem ownEffect_advance_serial (s : State) (c : Controller) (n : BitVec 16) :
    (ownEffect (.advance n) s c).serial.baudRate = c.serial.baudRate ∧
      (ownEffect (.advance n) s c).serial.sendBuffer = c.serial.sendBuffer ∧
      (c.serial.active = false → (ownEffect (.advance n) s c).serial = c.serial) := by
  simp only [ownEffect]
  split_ifs with ha hReached
  · exact ⟨rfl, rfl, fun h => absurd (ha.symm.trans h) (by decide)⟩
  · exact ⟨rfl, rfl, fun h => absurd (ha.symm.trans h) (by decide)⟩
  · exact ⟨rfl, rfl, fun _ => rfl⟩

/-- Settles O40: another controller keeps its serial state; the addressed one has that of its own effect. -/
theorem serialFieldsChangeOnlyByTheirWriters : Obligations.SerialFieldsChangeOnlyByTheirWriters := by
  intro i s t j c d h hc hd
  by_cases hj : j = s.self
  · subst hj
    rw [serial_of_self h hc hd]
    cases i with
    | outP3 v =>
      cases ha : c.serial.active with
      | true => simp [ownEffect_outP3_of_active ha, ha]
      | false => simp [ownEffect_outP3_baudRate]
    | outP5 v => simp [ownEffect, Controller.writeSerialControl]
    | advance n =>
      obtain ⟨hRate, hBuffer, hIdle⟩ := ownEffect_advance_serial s c n
      cases ha : c.serial.active with
      | true => simp [hRate, hBuffer]
      | false => simp [hIdle ha, ha]
    | baud x => simp [ownEffect]
    | reset => simp
    | _ => simp [ownEffect_serial_kept]
  · simp [serial_of_other h hj hc hd]

/-! ### The invariant (R36, R37, R107) -/

theorem received_serialOk {b : Byte} (h : c.serialOk) : (c.received b).serialOk := by
  obtain ⟨hActive, hSending⟩ := h
  exact ⟨hActive.trans (txfl_setRxrd _).symm, hSending⟩

/-- A start sets TXFL, captures the byte and has a positive count (R81, R94). -/
theorem outP3_serialOk (h : c.serialOk) (s : State) (v : Byte) : (ownEffect (.outP3 v) s c).serialOk := by
  cases ha : c.serial.active with
  | true => rwa [ownEffect_outP3_of_active ha]
  | false =>
    rw [ownEffect_outP3_of_idle ha]
    obtain ⟨hActive, -⟩ := h
    split_ifs
    · exact ⟨(txfl_setTxfl _).symm, fun _ => ⟨rfl, Int.natCast_pos.2 (txlen_pos _)⟩⟩
    · exact ⟨hActive, fun h => absurd (ha.symm.trans h) (by decide)⟩

/-- A completion clears TXFL with `active`; a count that does not complete stays positive (R95, R97). -/
theorem advance_serialOk (h : c.serialOk) (s : State) (n : BitVec 16) :
    (ownEffect (.advance n) s c).serialOk := by
  obtain ⟨hActive, hSending⟩ := h
  simp only [ownEffect]
  split_ifs with ha hReached
  · exact ⟨(txfl_clearTxfl _).symm, fun h => absurd h Bool.false_ne_true⟩
  · obtain ⟨hByte, -⟩ := hSending ha
    exact ⟨hActive, fun _ => ⟨hByte, Int.sub_pos.2 (not_le.1 hReached)⟩⟩
  · exact ⟨hActive, hSending⟩

/-- The addressed controller keeps R36. -/
theorem ownEffect_serialOk (hWf : s.config.wf) (h : c.serialOk) (i : Instr) :
    (ownEffect i s c).serialOk := by
  obtain ⟨hActive, hSending⟩ := id h
  cases i with
  | inP4 => exact ⟨hActive.trans (txfl_clearRxrd _).symm, hSending⟩
  | outP3 v => exact outP3_serialOk h s v
  | outP5 v => exact ⟨hActive.trans (txfl_writeControl _ _).symm, hSending⟩
  | advance n => exact advance_serialOk h s n
  | receive b =>
    simp only [ownEffect]
    split
    · exact received_serialOk h
    · exact h
  | reset => exact ⟨hWf.1.symm, fun h => absurd h Bool.false_ne_true⟩
  | link other => simp only [ownEffect]; split <;> exact h
  | _ => exact h

/-- A command that answers a next state keeps the invariant. -/
theorem exec_keeps_inv (hInv : s.Inv) (h : exec i s = .next t) : t.Inv := by
  obtain ⟨hWf, hRising, hSerial, hLink⟩ := hInv
  have hKept := commandsKeepConfigurationAndInputs i s t h
  have hIds := hKept.ids
  have hRising' : t.idsRising := by rwa [State.idsRising, hIds]
  have hBefore {d : Controller} (hd : d ∈ t.controllers) :
      t.find d.config.id = some d ∧ ∃ c, s.find d.config.id = some c := by
    have hFind := find_of_mem hRising' hd
    exact ⟨hFind, mem_ids_iff.1 (hIds ▸ mem_ids_iff.2 ⟨d, hFind⟩)⟩
  refine ⟨hKept.config ▸ hWf, hRising', fun d hd => ?_, fun d hd => ?_⟩
  · obtain ⟨hFind, c, hc⟩ := hBefore hd
    have hOk := hSerial c (find_mem hc)
    obtain ⟨-, hEq⟩ | ⟨-, hEq⟩ | ⟨_, _, -, -, -, -, ⟨-, hEq⟩ | ⟨-, -, hEq⟩⟩ := controller_cases h hc hFind
    · exact hEq ▸ ownEffect_serialOk hWf hOk i
    · exact hEq ▸ hOk
    · exact hEq ▸ received_serialOk hOk
    · exact hEq ▸ received_serialOk (ownEffect_serialOk hWf hOk i)
  · obtain ⟨hFind, c, hc⟩ := hBefore hd
    rw [hIds]
    by_cases hPeer : d.peer = c.peer
    · rw [hPeer, ← find_id hc]
      exact hLink c (find_mem hc)
    · obtain ⟨hj, ⟨-, hNone⟩ | ⟨other, -, hOther, hMem, hSome⟩⟩ :=
        linksChangeOnlyByLinkAndUnlink i s t _ c d h hc hFind hPeer
      · simp [hNone]
      · rw [hSome, hj]
        exact ⟨fun h => hOther (Option.some.inj h), by simpa using hMem⟩

/-- Settles O51: a step runs one command on the same controllers, and every command keeps the invariant. -/
theorem everyStepKeepsTheInvariant : Obligations.EveryStepKeepsTheInvariant := by
  intro s t hInv h
  obtain rfl | ⟨i, s', hExec, hConfig, hControllers⟩ := step_next h
  · exact hInv
  · refine exec_keeps_inv ?_ hExec
    rwa [State.Inv, State.idsRising, State.linkOk, State.ids, hConfig, hControllers]

/-- Settles O50: the boot state is one closed term, and boot is RESET without a link. -/
theorem bootHasTheInvariant : Obligations.BootHasTheInvariant := by
  refine ⟨by decide, fun c hc => ?_⟩
  obtain ⟨g, -, rfl⟩ := List.mem_map.1 hc
  exact ⟨rfl, boot_eq_afterReset _ g⟩

end Sys2Proof.Machine
end

section
/-! SUPPORT. The observation of a command (R10, R116, R119): what every command returns, and the NMI requests
among its events; and the statements O11, O22 and O53. -/

namespace Sys2Proof.Machine

variable {i : Instr} {s t : State} {j : InstanceId} {c d : Controller}

/-! ### What a command returns, and the NMI requests that fall due -/

/-- The results a command may add: one byte for an IN, one pair for a SAVE, none otherwise (R10). -/
def Returns (i : Instr) (who : InstanceId) (rs : List CommandResult) : Prop :=
  (i.isIn = true → ∃ v, rs = [.byte who v]) ∧
  (i = .save → ∃ b0 b1, rs = [.pair who b0 b1]) ∧
  (i.isIn = false → i ≠ .save → rs = [])

theorem Returns.none {who : InstanceId} (hIn : i.isIn = false) (hSave : i ≠ .save) : Returns i who [] :=
  ⟨fun h => absurd (hIn.symm.trans h) Bool.false_ne_true, fun h => absurd h hSave, fun _ _ => rfl⟩

/-- The NMI requests of a Receive performed by `c` (R99). -/
def receiveEvents (c : Controller) : List Event :=
  if ron c.bank.port5 = true ∧ intEnable c.bank.port5 = true then nmiEvents c else []

/-- The NMI requests of a command addressed to `c` (R116): the Port2 edge, a Receive, and the Receive of the
peer a completing ADVANCE delivers to. -/
def dueNmis (i : Instr) (s : State) (c : Controller) : List Event :=
  match i with
  | .outP2 v => if nmiEdge c.bank.port2 v then nmiEvents c else []
  | .receive _ => receiveEvents c
  | .advance n =>
    if c.serial.active = true ∧ c.serial.clocksRemaining ≤ (n.toNat : Int) then
      match c.peer.bind s.find with
      | some d => receiveEvents d
      | none => []
    else []
  | _ => []

/-- All a command adds to the observation. -/
structure Observed (i : Instr) (s t : State) (c : Controller) (rs : List CommandResult) (es : List Event) :
    Prop where
  results : t.results = s.results ++ rs
  events : t.events = s.events ++ es
  returns : Returns i s.self rs
  nmis : es.filter Event.isNmi = dueNmis i s c

@[simp] theorem filter_isNmi_nmiEvents (c : Controller) : (nmiEvents c).filter Event.isNmi = nmiEvents c := by
  unfold nmiEvents
  split <;> rfl

@[simp] theorem filter_isNmi_receiveEvents (c : Controller) :
    (receiveEvents c).filter Event.isNmi = receiveEvents c := by
  unfold receiveEvents
  split
  · exact filter_isNmi_nmiEvents c
  · rfl

theorem receive_observation (s : State) (c : Controller) (b : Byte) :
    (s.receive c b).results = s.results ∧ (s.receive c b).events = s.events ++ receiveEvents c := by
  unfold receiveEvents
  rcases receive_cases s c b with ⟨hRon, hEq⟩ | ⟨hRon, hInt, hEq⟩ | ⟨hRon, hInt, hEq⟩
  · simp [hEq, hRon]
  · simp [hEq, hRon, hInt]
  · rw [hEq, if_pos ⟨hRon, hInt⟩]
    exact ⟨nmiRequest_results _ _, nmiRequest_events _ _⟩

/-! ### The three families -/

/-- An IN returns one byte, requests no NMI and, but for IN 0x04, stores nothing (R62). -/
theorem in_observation (hi : i.isIn = true) (h : exec i s = .next t) :
    ∃ v es, t.results = s.results ++ [.byte s.self v] ∧ t.events = s.events ++ es ∧
      es.filter Event.isNmi = [] ∧ (i ≠ .inP4 → t.controllers = s.controllers) := by
  have hNone : s.events = s.events ++ [] := (List.append_nil _).symm
  cases i with
  | inP1 =>
    obtain ⟨c, hc, hk⟩ := onSelf_next.1 h
    split at hk
    · obtain rfl := Host.Outcome.next.inj hk
      exact ⟨_, [_], rfl, rfl, rfl, fun _ => rfl⟩
    · split at hk
      · obtain rfl := Host.Outcome.next.inj hk
        exact ⟨_, [_], rfl, rfl, rfl, fun _ => rfl⟩
      · cases hk
  | inP0 | inC0 | inDC | inC1 | inDD | inVcnt _ | inHcnt _ | inVdata _ | inVstat _ =>
    obtain ⟨c, hc, hk⟩ := onSelf_next.1 h
    obtain rfl := Host.Outcome.next.inj hk
    exact ⟨_, [_], rfl, rfl, rfl, fun _ => rfl⟩
  | inP2 | inP3 | inP5 | inNullLo _ | inNullHi _ =>
    obtain ⟨c, hc, hk⟩ := onSelf_next.1 h
    obtain rfl := Host.Outcome.next.inj hk
    exact ⟨_, [], rfl, hNone, rfl, fun _ => rfl⟩
  | inP4 =>
    obtain ⟨c, hc, hk⟩ := onSelf_next.1 h
    obtain rfl := Host.Outcome.next.inj hk
    exact ⟨_, [], rfl, hNone, rfl, fun h => absurd rfl h⟩
  | _ => cases hi

/-- A command outside the IN family and SAVE, which returns nothing. -/
theorem observed_of_quiet {es : List Event} (hIn : i.isIn = false) (hSave : i ≠ .save)
    (hResults : t.results = s.results) (hEvents : t.events = s.events ++ es)
    (hNmis : es.filter Event.isNmi = dueNmis i s c) : ∃ rs es, Observed i s t c rs es :=
  ⟨[], es, by rw [hResults, List.append_nil], hEvents, .none hIn hSave, hNmis⟩

/-- The NMI of OUT 0x02 is requested on its edge (R80). -/
theorem outP2_observed {v : Byte} (hc : s.find s.self = some c) (h : exec (.outP2 v) s = .next t) :
    ∃ rs es, Observed (.outP2 v) s t c rs es := by
  rw [exec_outP2 hc] at h
  split_ifs at h with hEdge
  · obtain rfl := Host.Outcome.next.inj h
    refine observed_of_quiet (es := nmiEvents c) rfl nofun (nmiRequest_results _ _) (nmiRequest_events _ _) ?_
    rw [filter_isNmi_nmiEvents]
    exact (if_pos hEdge).symm
  · obtain rfl := Host.Outcome.next.inj h
    exact observed_of_quiet rfl nofun rfl (List.append_nil _).symm (if_neg hEdge).symm

/-- What a Receive asks for is the same before and after the receiver ends a transfer of its own. -/
theorem receiveEvents_endTransfer (c : Controller) (n : Nat) :
    receiveEvents (c.countDown n).endTransfer = receiveEvents c := by
  simp only [receiveEvents, endTransfer_bank, countDown_bank, ron_clearTxfl, intEnable_clearTxfl]
  rfl

/-- The receiver of a delivery, as it was before the sender ended its transfer. -/
theorem receiver_before_put {n : Nat} (hc : s.find s.self = some c)
    (hd : (s.put (c.countDown n).endTransfer).find j = some d) :
    ∃ e, s.find j = some e ∧ receiveEvents d = receiveEvents e := by
  by_cases hj : j = s.self
  · subst hj
    have hId : (c.countDown n).endTransfer.config.id = s.self := find_id (c := c) hc
    rw [find_put_own hc hId] at hd
    obtain rfl := Option.some.inj hd
    exact ⟨c, hc, receiveEvents_endTransfer c n⟩
  · have hOther : (c.countDown n).endTransfer.config.id ≠ j :=
      fun h => hj (h.symm.trans (find_id (c := c) hc))
    rw [find_put_other hOther] at hd
    exact ⟨d, hd, rfl⟩

/-- The NMI of ADVANCE is that of the Receive of the peer it delivers to (R98, R99). -/
theorem advance_observed {n : BitVec 16} (hc : s.find s.self = some c) (h : exec (.advance n) s = .next t) :
    ∃ rs es, Observed (.advance n) s t c rs es := by
  obtain ⟨c', hc', hCases⟩ := advanceBy_next h
  obtain rfl : c' = c := Option.some.inj (hc'.symm.trans hc)
  simp only [elapsed] at hCases
  have hNone : s.events = s.events ++ [] := (List.append_nil _).symm
  obtain ⟨ha, rfl⟩ | ⟨ha, hn, rfl⟩ | ⟨ha, hn, hPeer, rfl⟩ | ⟨ha, hn, p, d, hPeer, hd, rfl⟩ := hCases
  · exact observed_of_quiet rfl nofun rfl hNone (by simp [dueNmis, ha])
  · refine observed_of_quiet rfl nofun rfl hNone ?_
    simp [dueNmis, show ¬ c'.serial.clocksRemaining ≤ (n.toNat : Int) by omega]
  · exact observed_of_quiet rfl nofun rfl hNone (by simp [dueNmis, hPeer])
  · obtain ⟨hResults, hEvents⟩ := receive_observation ((s.put (c'.countDown n.toNat).endTransfer).emit
      (.peerDelivery s.self p c'.serial.sendBuffer)) d c'.serial.sendBuffer
    refine observed_of_quiet (es := .peerDelivery s.self p c'.serial.sendBuffer :: receiveEvents d) rfl nofun
      hResults (by rw [hEvents]; simp) ?_
    have hReached : c'.serial.clocksRemaining ≤ (n.toNat : Int) := by omega
    obtain ⟨e, hFound, hSame⟩ := receiver_before_put hc hd
    simp [dueNmis, ha, hReached, hPeer, hFound, hSame, Event.isNmi]

/-- What every command that answers a next state adds to the observation. -/
theorem exec_observed (h : exec i s = .next t) :
    ∃ c rs es, s.find s.self = some c ∧ Observed i s t c rs es := by
  obtain ⟨c, hc, -⟩ := exec_cases h
  suffices h' : ∃ rs es, Observed i s t c rs es by
    obtain ⟨rs, es, hObs⟩ := h'
    exact ⟨c, rs, es, hc, hObs⟩
  have hNone : s.events = s.events ++ [] := (List.append_nil _).symm
  cases i with
  | outP0 _ | outP1 _ | outP4 _ | outP5 _ | outNullHi _ _ | baud _ | unlink | reset =>
    obtain rfl := Host.Outcome.next.inj ((onSelf_some hc _).symm.trans h)
    exact observed_of_quiet rfl nofun rfl hNone rfl
  | outP6 _ | outMemctl _ _ | outPsg _ _ | outVdata _ _ | outVctl _ _ =>
    obtain rfl := Host.Outcome.next.inj ((onSelf_some hc _).symm.trans h)
    exact observed_of_quiet (es := [_]) rfl nofun rfl rfl rfl
  | outP2 v => exact outP2_observed hc h
  | outP3 v =>
    rw [exec_outP3 hc] at h
    split_ifs at h
    all_goals
      obtain rfl := Host.Outcome.next.inj h
      exact observed_of_quiet rfl nofun rfl hNone rfl
  | outIoctl a v =>
    rw [exec_outIoctl hc] at h
    split_ifs at h
    · obtain rfl := Host.Outcome.next.inj h
      exact observed_of_quiet rfl nofun rfl hNone rfl
    · obtain rfl := Host.Outcome.next.inj h
      exact observed_of_quiet (es := [_]) rfl nofun rfl rfl rfl
  | advance n => exact advance_observed hc h
  | receive b =>
    obtain rfl := Host.Outcome.next.inj ((onSelf_some hc _).symm.trans h)
    obtain ⟨hResults, hEvents⟩ := receive_observation s c b
    exact observed_of_quiet rfl nofun hResults hEvents (filter_isNmi_receiveEvents c)
  | link other =>
    rw [exec_link hc] at h
    split_ifs at h
    all_goals
      obtain rfl := Host.Outcome.next.inj h
      exact observed_of_quiet rfl nofun rfl hNone rfl
  | save =>
    obtain rfl := Host.Outcome.next.inj ((exec_save hc).symm.trans h)
    exact ⟨_, [], rfl, hNone, ⟨nofun, fun _ => ⟨_, _, rfl⟩, fun _ h => absurd rfl h⟩, rfl⟩
  | load b0 b1 =>
    rw [show exec (.load b0 b1) s = _ from onSelf_some hc _] at h
    split_ifs at h
    obtain rfl := Host.Outcome.next.inj h
    exact observed_of_quiet rfl nofun rfl hNone rfl
  | reserved9 r | reservedAB r | reservedCF r => cases h
  | _ =>
    obtain ⟨v, es, hResults, hEvents, hNmis, -⟩ := in_observation rfl h
    exact ⟨_, es, hResults, hEvents, ⟨fun _ => ⟨v, rfl⟩, nofun, nofun⟩, hNmis⟩

/-! ### One NMI at most, and none from a read (R62, R119) -/

theorem length_nmiEvents_le_one (c : Controller) : (nmiEvents c).length ≤ 1 := by
  unfold nmiEvents
  split <;> simp

theorem length_receiveEvents_le_one (c : Controller) : (receiveEvents c).length ≤ 1 := by
  unfold receiveEvents
  split
  · exact length_nmiEvents_le_one c
  · simp

/-- No command requests two NMIs (R119). -/
theorem length_dueNmis_le_one (i : Instr) (s : State) (c : Controller) : (dueNmis i s c).length ≤ 1 := by
  unfold dueNmis
  split
  · split
    · exact length_nmiEvents_le_one c
    · simp
  · exact length_receiveEvents_le_one c
  · split
    · split
      · exact length_receiveEvents_le_one _
      · simp
    · simp
  · simp

/-- Settles O11: the results are those the command returns, and its NMI requests are at most one. -/
theorem commandsAppendTheirObservation : Obligations.CommandsAppendTheirObservation := by
  intro i s t h
  obtain ⟨c, rs, es, -, hObs⟩ := exec_observed h
  obtain ⟨hIn, hSave, hQuiet⟩ := hObs.returns
  exact ⟨rs, es, hObs.results, hObs.events, hObs.nmis ▸ length_dueNmis_le_one i s c, hIn, hSave, hQuiet⟩

/-- Settles O22: an IN other than IN 0x04 stores no controller, and IN 0x04 stores Port5 with RXRD cleared. -/
theorem readsWriteNothingButRxrd : Obligations.ReadsWriteNothingButRxrd := by
  intro i s t hi h
  obtain ⟨v, es, -, hEvents, hNmis, hStored⟩ := in_observation hi h
  have hNoNmi : t.events.filter Event.isNmi = s.events.filter Event.isNmi := by
    rw [hEvents, List.filter_append, hNmis, List.append_nil]
  by_cases hP4 : i = .inP4
  · subst hP4
    obtain ⟨c, hc, -⟩ := onSelf_next.1 h
    obtain ⟨t', p5, hExec, hRan, hClear, hOther⟩ := inP4ReturnsPort4AndClearsRxrd s c hc
    obtain rfl := Host.Outcome.next.inj (h.symm.trans hExec)
    refine ⟨absurd rfl, hRan.others, fun _ => ⟨_, hRan.own, hClear⟩, fun j e d he hd => ?_, hNoNmi⟩
    by_cases hj : j = s.self
    · subst hj
      obtain rfl := Option.some.inj (hc.symm.trans he)
      obtain rfl := Option.some.inj (hRan.own.symm.trans hd)
      refine ⟨rfl, rfl, fun r hr => ?_, hOther⟩
      cases r with
      | port5 => exact absurd rfl hr
      | _ => rfl
    · obtain rfl := Option.some.inj (he.symm.trans ((hRan.others j hj).symm.trans hd))
      exact ⟨rfl, rfl, fun _ _ => rfl, fun _ _ => rfl⟩
  · have hFind (j : InstanceId) : t.find j = s.find j := by simp only [State.find, hStored hP4]
    refine ⟨hStored, fun j _ => hFind j, fun h => absurd h hP4, fun j e d he hd => ?_, hNoNmi⟩
    obtain rfl := Option.some.inj (he.symm.trans ((hFind j).symm.trans hd))
    exact ⟨rfl, rfl, fun _ _ => rfl, fun _ _ => rfl⟩

/-! ### The two sources of an NMI (R116) -/

theorem mem_nmiEvents {e : Event} :
    e ∈ nmiEvents c ↔ c.config.nmiPath = true ∧ e = .nmiRequest c.config.id := by
  unfold nmiEvents
  split_ifs with hPath
  · simp [hPath]
  · simp [hPath]

theorem mem_receiveEvents {e : Event} :
    e ∈ receiveEvents c ↔
      (c.bank.port5.getLsbD 5 = true ∧ c.bank.port5.getLsbD 3 = true) ∧ e ∈ nmiEvents c := by
  unfold receiveEvents
  split_ifs with hDue
  · exact (and_iff_right hDue).symm
  · exact iff_of_false List.not_mem_nil fun h => hDue h.1

theorem nmiEdge_iff (old new : Byte) : nmiEdge old new = true ↔
    new.getLsbD 7 = false ∧ old.getLsbD 6 = true ∧ new.getLsbD 6 = false := by
  simp [nmiEdge, and_assoc]

theorem nmiDue_outP2 {v : Byte} : NmiDue (.outP2 v) s j d ↔ j = s.self ∧ nmiEdge d.bank.port2 v = true := by
  simp [NmiDue, nmiEdge_iff]

theorem nmiDue_receive {b : Byte} : NmiDue (.receive b) s j d ↔
    j = s.self ∧ d.bank.port5.getLsbD 5 = true ∧ d.bank.port5.getLsbD 3 = true := by
  simp [NmiDue]

theorem nmiDue_advance {n : BitVec 16} : NmiDue (.advance n) s j d ↔
    (∃ b, DeliversTo s n.toNat j b) ∧ d.bank.port5.getLsbD 5 = true ∧ d.bank.port5.getLsbD 3 = true := by
  simp [NmiDue]

theorem exists_deliversTo_iff (hc : s.find s.self = some c) (n : Nat) (j : InstanceId) :
    (∃ b, DeliversTo s n j b) ↔
      (c.serial.active = true ∧ c.serial.clocksRemaining ≤ (n : Int)) ∧ c.peer = some j := by
  simp [DeliversTo, hc, and_assoc]

/-- A request of the controller found under `k`, in the form of the claims. -/
theorem request_iff {k : InstanceId} (hc : s.find k = some c) (P : Controller → Prop) (j : InstanceId) :
    (P c ∧ .nmiRequest j ∈ nmiEvents c) ↔
      ∃ d, s.find j = some d ∧ d.config.nmiPath = true ∧ j = k ∧ P d := by
  rw [mem_nmiEvents, Event.nmiRequest.injEq, find_id hc]
  constructor
  · rintro ⟨hP, hPath, rfl⟩
    exact ⟨c, hc, hPath, rfl, hP⟩
  · rintro ⟨d, hd, hPath, rfl, hP⟩
    obtain rfl := Option.some.inj (hc.symm.trans hd)
    exact ⟨hP, hPath, rfl⟩

/-- The requests that fall due are those the claims name. -/
theorem mem_dueNmis_iff (hc : s.find s.self = some c) (i : Instr) (j : InstanceId) :
    .nmiRequest j ∈ dueNmis i s c ↔
      ∃ d, s.find j = some d ∧ d.config.nmiPath = true ∧ NmiDue i s j d := by
  cases i with
  | outP2 v =>
    simp only [nmiDue_outP2, ← request_iff hc (fun d => nmiEdge d.bank.port2 v = true), dueNmis]
    split_ifs with hEdge <;> simp [hEdge]
  | receive b =>
    simp only [nmiDue_receive, dueNmis]
    rw [mem_receiveEvents]
    exact request_iff hc (fun d => d.bank.port5.getLsbD 5 = true ∧ d.bank.port5.getLsbD 3 = true) j
  | advance n =>
    simp only [nmiDue_advance, exists_deliversTo_iff hc, dueNmis]
    split_ifs with hReached
    · cases hPeer : c.peer with
      | none => simp
      | some p =>
        cases hFound : s.find p with
        | none =>
          simp only [Option.bind_some, hFound, List.not_mem_nil, Option.some.injEq, false_iff]
          rintro ⟨d, hd, -, ⟨-, rfl⟩, -⟩
          exact nomatch hFound.symm.trans hd
        | some e =>
          simp only [Option.bind_some, hFound, mem_receiveEvents, Option.some.injEq, and_iff_right hReached,
            eq_comm (a := p)]
          exact request_iff hFound (fun d => d.bank.port5.getLsbD 5 = true ∧ d.bank.port5.getLsbD 3 = true) j
    · simp [hReached]
  | _ => simp [dueNmis, NmiDue]

/-- Settles O53: the NMI requests of a command are those that fall due. -/
theorem nmiHasExactlyTwoSources : Obligations.NmiHasExactlyTwoSources := by
  intro i s t h
  obtain ⟨c, rs, es, hc, hObs⟩ := exec_observed h
  refine ⟨es, hObs.events, fun j => ?_⟩
  rw [← mem_dueNmis_iff hc, ← hObs.nmis, List.mem_filter]
  exact (and_iff_left rfl).symm

end Sys2Proof.Machine
end

section
/-! SUPPORT. The remaining reads and writes (40_port_read.md, 41_port_write.md), each as the effect on the
controller it is addressed to with the bits of the byte it returns or stores: the statements O12, O13, O20,
O21, O23 to O25, O28, O29, O32 and O38. -/

namespace Sys2Proof.Machine

variable {s t : State} {c d : Controller}

/-! ### The bits of the bytes -/

/-- The pad and region byte sets bit 6 in every region but Japan's (R63). -/
theorem miscByte_of_ne {region : Region} (h : region ≠ .japanVariant) (v : Byte) :
    miscByte region v = withBit v 6 true :=
  if_neg h

/-- The merge of input port B: the draw below bit 6, Port3F above (R75). -/
theorem portBByte_getLsbD (port3F v : Byte) (k : Nat) :
    (portBByte port3F v).getLsbD k = if k < 6 then v.getLsbD k else port3F.getLsbD k := by
  unfold portBByte
  rw [BitVec.getLsbD_or, BitVec.getLsbD_and, BitVec.getLsbD_and]
  match k with
  | 0 | 1 | 2 | 3 | 4 | 5 | 6 | 7 => simp
  | n + 8 => simp [BitVec.getLsbD_of_ge]

/-- The control bits of Port5 are the written value's from bit 3 on (R83). -/
theorem writeControl_getLsbD_of_ge (old value : Byte) {k : Nat} (hk : 3 ≤ k) :
    (writeControl old value).getLsbD k = value.getLsbD k := by
  by_cases h8 : k < 8
  · rw [writeControl_getLsbD _ _ _ h8, if_neg (by omega)]
  · rw [BitVec.getLsbD_of_ge _ _ (by omega), BitVec.getLsbD_of_ge _ _ (by omega)]

/-- The selector is bits 7:6 as a number (R91). -/
theorem baudSelector_eq_of_div {v : Byte} {x : BitVec 2} (h : v.toNat / 64 = x.toNat) :
    baudSelector v = x := by
  have : x.toNat < 4 := x.isLt
  apply BitVec.eq_of_toNat_eq
  rw [baudSelector, BitVec.extractLsb'_toNat, Nat.shiftRight_eq_div_pow, h]
  omega

/-- The four rates in the selector's order (R91). -/
theorem hz_baudRateOf : (baudRateOf 0).hz = 4800 ∧ (baudRateOf 1).hz = 2400 ∧ (baudRateOf 2).hz = 1200 ∧
    (baudRateOf 3).hz = 300 := by decide

/-- The Port3F byte before the inversion: bit 7 to bit 7, bit 5 to bit 6, zeros below (R86). -/
theorem shadow_getLsbD (v : Byte) (k : Nat) :
    ((v &&& 0x80) ||| ((v &&& 0x20) <<< 1)).getLsbD k =
      if k = 7 then v.getLsbD 7 else if k = 6 then v.getLsbD 5 else false := by
  match k with
  | 0 | 1 | 2 | 3 | 4 | 5 | 6 | 7 => simp
  | n + 8 => simp [BitVec.getLsbD_of_ge]

/-- The Port3F byte: the shadow, complemented whole under `JapanVariant` (R86). -/
theorem ioctlByte_getLsbD (region : Region) (v : Byte) {k : Nat} (hk : k < 8) :
    (ioctlByte region v).getLsbD k =
      (decide (region = .japanVariant)).xor
        (if k = 7 then v.getLsbD 7 else if k = 6 then v.getLsbD 5 else false) := by
  rw [← shadow_getLsbD]
  unfold ioctlByte
  split_ifs with hJapan
  · simp [hJapan, hk]
  · simp [hJapan]

/-- No trigger bit rises exactly if every trigger bit of the value is set already (R86). -/
theorem hcRise_eq_zero_iff (mask old v : Byte) :
    hcRise mask old v = 0 ↔
      ∀ k, v.getLsbD k = true → mask.getLsbD k = true → old.getLsbD k = true := by
  have hBit (k : Nat) (hk : k < 8) : (hcRise mask old v).getLsbD k =
      (v.getLsbD k && mask.getLsbD k && !old.getLsbD k) := by
    simp [hcRise, hk]
  constructor
  · intro h k hValue hMask
    have := hBit k (BitVec.lt_of_getLsbD hValue)
    simpa [h, hValue, hMask] using this
  · intro h
    apply BitVec.eq_of_getLsbD_eq
    intro k hk
    rw [hBit k hk]
    by_cases hSet : v.getLsbD k = true ∧ mask.getLsbD k = true
    · obtain ⟨hValue, hMask⟩ := hSet
      simp [h k hValue hMask]
    · rw [← Bool.and_eq_true, Bool.not_eq_true] at hSet
      simp [hSet]

/-! ### Reads -/

theorem exec_inP0 (h : s.find s.self = some c) :
    exec .inP0 s = .next ((s.drawn .getMiscPort).answerByte (miscByte c.config.region s.draw)) :=
  onSelf_some h _

/-- Settles O12: the region decides whether bit 6 of the draw is set. -/
theorem inP0ReturnsThePadAndRegionByte : Obligations.InP0ReturnsThePadAndRegionByte := by
  intro s c h
  refine ⟨_, _, exec_inP0 h, ((Ran.refl h).emit _).answerByte _, fun hJapan => if_pos hJapan,
    fun hOther => ?_⟩
  rw [miscByte_of_ne hOther]
  have hBit (k : Nat) := withBit_getLsbD s.draw 6 k (by decide) true
  exact ⟨hBit 6, fun k hk => (hBit k).trans (if_neg hk)⟩

theorem exec_inP1_unlinked (h : s.find s.self = some c) (hPeer : c.peer = none) :
    exec .inP1 s = .next ((s.drawn .port1PadByte).answerByte (padMask s.draw)) := by
  refine (onSelf_some h _).trans ?_
  rw [hPeer]

theorem exec_inP1_linked {p : InstanceId} (h : s.find s.self = some c) (hPeer : c.peer = some p)
    (hd : s.find p = some d) :
    exec .inP1 s = .next ((s.drawn .port1PadByte).answerByte (padMerge d.bank s.draw)) := by
  refine (onSelf_some h _).trans ?_
  simp only [hPeer, hd]

/-- Settles O13: the byte is the mask of the draw, or its merge with the peer's lines. -/
theorem inP1MergesTheLinesThePeerDrives : Obligations.InP1MergesTheLinesThePeerDrives := by
  intro s c h hPresent
  have hAnswer (v : Byte) := ((Ran.refl h).emit (.read s.self .port1PadByte s.draw)).answerByte v
  cases hPeer : c.peer with
  | none =>
    refine ⟨_, _, exec_inP1_unlinked h hPeer, hAnswer _, ?_, fun _ k hk => ?_, nofun⟩
    · rw [padMask_getLsbD]
      simp
    · simp [padMask_getLsbD, hk]
  | some p =>
    obtain ⟨d, hd⟩ := hPresent p hPeer
    refine ⟨_, _, exec_inP1_linked h hPeer hd, hAnswer _, ?_, nofun, fun p' d' hp' hd' k hk => ?_⟩
    · rw [padMerge_getLsbD]
      simp
    · obtain rfl := Option.some.inj hp'
      obtain rfl := Option.some.inj (hd.symm.trans hd')
      simp [padMerge_getLsbD, hk]

/-- Settles O20: both ports are the read of input port A. -/
theorem inC0AndInDCReturnPortA : Obligations.InC0AndInDCReturnPortA :=
  fun _ _ h => ⟨⟨_, onSelf_some h _, .readDevice h _⟩, ⟨_, onSelf_some h _, .readDevice h _⟩⟩

theorem readPortB_ran (h : s.find s.self = some c) :
    ∃ t, s.readPortB = .next t ∧
      Ran s t c [.byte s.self (portBByte c.bank.port3F s.draw)] [.read s.self .getPortB s.draw] :=
  ⟨_, onSelf_some h _, ((Ran.refl h).emit _).answerByte _⟩

/-- Settles O21: both ports are the read of input port B, merged with Port3F. -/
theorem inC1AndInDDMergePort3F : Obligations.InC1AndInDDMergePort3F := by
  intro s c h
  refine ⟨portBByte c.bank.port3F s.draw, fun k hk => ?_, fun k hk => ?_, readPortB_ran h, readPortB_ran h⟩
  · rw [portBByte_getLsbD, if_pos hk]
  · rw [portBByte_getLsbD, if_neg (by omega)]

/-! ### Writes -/

/-- An OUT that only stores (R78, R79). -/
theorem storeReg_ran (h : s.find s.self = some c) (r : Reg) (v : Byte) :
    ∃ t, s.storeReg r v = .next t ∧ Ran s t (c.setReg r v) [] [] :=
  ⟨_, onSelf_some h _, Ran.put h rfl⟩

/-- Settles O23: the row is one store. -/
theorem outP0StoresPort0 : Obligations.OutP0StoresPort0 :=
  fun _ _ v h => storeReg_ran h .port0 v

/-- Settles O24: the row is one store. -/
theorem outP1StoresPort1 : Obligations.OutP1StoresPort1 :=
  fun _ _ v h => storeReg_ran h .port1 v

/-- Settles O25: the NMI is requested on the edge and only there. -/
theorem outP2StoresPort2AndRequestsTheNmi : Obligations.OutP2StoresPort2AndRequestsTheNmi := by
  intro s c v h
  have hStore := Ran.put (c' := c.setReg .port2 v) h rfl
  rw [exec_outP2 h, ← nmiEdge_iff]
  split_ifs with hEdge
  · exact ⟨_, _, rfl, hStore.nmiRequest _, fun _ => rfl, fun hNot => absurd hEdge hNot⟩
  · exact ⟨_, _, rfl, hStore, fun hDue => absurd hDue hEdge, fun _ => rfl⟩

/-- Settles O28: the control bits and the rate are the value's, the status bits stay. -/
theorem outP5UpdatesTheControlBitsAndTheRate : Obligations.OutP5UpdatesTheControlBitsAndTheRate := by
  intro s c v h
  obtain ⟨h0, h1, h2, h3⟩ := hz_baudRateOf
  refine ⟨_, writeControl c.bank.port5 v, baudRateOf (baudSelector v), exec_outP5 h v, Ran.put h rfl,
    fun k hk => ?_, fun k hk => writeControl_getLsbD_of_ge _ _ hk, fun hv => ?_, fun hv => ?_, fun hv => ?_,
    fun hv => ?_⟩
  · rw [writeControl_getLsbD _ _ _ (by omega), if_pos hk]
  · rwa [baudSelector_eq_of_div (x := 0) hv]
  · rwa [baudSelector_eq_of_div (x := 1) hv]
  · rwa [baudSelector_eq_of_div (x := 2) hv]
  · rwa [baudSelector_eq_of_div (x := 3) hv]

/-- Settles O29: one store, then one call. -/
theorem outP6StoresAndForwards : Obligations.OutP6StoresAndForwards :=
  fun _ c v h => ⟨_, exec_outP6 h v, (Ran.put (c' := c.setReg .port6 v) h rfl).emit _⟩

/-- OUT to an odd low port latches the H-counter exactly if a trigger bit rises (R86). -/
theorem outIoctl_ran (h : s.find s.self = some c) (a v : Byte) :
    ∃ t, exec (.outIoctl a v) s = .next t ∧ Ran s t (c.writeIoctl s.config.hcTriggerMask v) []
      (if hcRise s.config.hcTriggerMask c.bank.port3FHC v = 0 then []
        else [.call s.self .latchHCounter]) := by
  have hStore := Ran.put (c' := c.writeIoctl s.config.hcTriggerMask v) h rfl
  rw [exec_outIoctl h]
  simp only [reg_eq, bankRead]
  split_ifs with hStays
  · exact ⟨_, if_pos hStays, hStore⟩
  · exact ⟨_, if_neg hStays, hStore.emit _⟩

/-- Settles O32: the two shadows bit by bit, and the latch on a rising trigger bit. -/
theorem outIoctlLatchesAndWritesTheShadows : Obligations.OutIoctlLatchesAndWritesTheShadows := by
  intro s c a v h
  obtain ⟨t, hExec, hRan⟩ := outIoctl_ran h a v
  refine ⟨t, ioctlByte c.config.region v, v &&& s.config.hcTriggerMask, _, hExec, hRan,
    fun k => BitVec.getLsbD_and, fun hRegion => ?_, fun hRegion => ?_, fun hRise => if_neg ?_,
    fun hStay => if_pos ((hcRise_eq_zero_iff _ _ _).2 hStay)⟩
  · refine ⟨?_, ?_, fun k hk => ?_⟩
    · rw [ioctlByte_getLsbD _ _ (by decide)]
      simp [hRegion]
    · rw [ioctlByte_getLsbD _ _ (by decide)]
      simp [hRegion]
    · rw [ioctlByte_getLsbD _ _ (by omega), if_neg (by omega), if_neg (by omega)]
      simp [hRegion]
  · refine ⟨?_, ?_, fun k hk => ?_⟩
    · rw [ioctlByte_getLsbD _ _ (by decide)]
      simp [hRegion]
    · rw [ioctlByte_getLsbD _ _ (by decide)]
      simp [hRegion]
    · rw [ioctlByte_getLsbD _ _ (by omega), if_neg (by omega), if_neg (by omega)]
      simp [hRegion]
  · obtain ⟨k, hValue, hMask, hOld⟩ := hRise
    intro hZero
    exact Bool.false_ne_true (hOld.symm.trans ((hcRise_eq_zero_iff _ _ _).1 hZero k hValue hMask))

/-- Settles O38: BAUD stores the rate of its selector and nothing else. -/
theorem baudSetsTheRateAlone : Obligations.BaudSetsTheRateAlone := by
  intro s c sel h
  obtain ⟨h0, h1, h2, h3⟩ := hz_baudRateOf
  exact ⟨_, baudRateOf sel, onSelf_some h _, Ran.put h rfl, fun hSel => hSel ▸ h0, fun hSel => hSel ▸ h1,
    fun hSel => hSel ▸ h2, fun hSel => hSel ▸ h3⟩

end Sys2Proof.Machine
end

section
/-! SUPPORT. The side-band commands (42_serial.md, 43_link.md, 44_persistence.md, 70_reset_and_hazards.md) on
the controller they are addressed to, a delivery included: the statements O34 to O37, O43, O44 and O47 to
O49. -/

namespace Sys2Proof.Machine

variable {s t : State} {c d : Controller} {p : InstanceId} {rs : List CommandResult} {es : List Event}

/-! ### Rates (R91, R92) -/

/-- Settles O34: `k + 1` is the least number whose product with the rate reaches the reference clock. -/
theorem ratesAndTransferLengths : Obligations.RatesAndTransferLengths := by
  refine ⟨hz_baudRateOf, fun r => ?_, by decide⟩
  cases r with
  | b4800 => exact ⟨745, by decide⟩
  | b2400 => exact ⟨1491, by decide⟩
  | b1200 => exact ⟨2982, by decide⟩
  | b300 => exact ⟨11931, by decide⟩

/-! ### ADVANCE (R95, R97) -/

/-- Clearing TXFL keeps every other bit. -/
theorem clearTxfl_getLsbD_of_ne (v : Byte) {k : Nat} (hk : k ≠ 0) :
    (clearTxfl v).getLsbD k = v.getLsbD k := by
  rw [clearTxfl_getLsbD]
  by_cases h8 : k < 8
  · simp [h8, show 1 ≤ k by omega]
  · simp [BitVec.getLsbD_of_ge v k (by omega)]

/-- Setting RXRD sets its bit and keeps every other. -/
theorem setRxrd_spec (v : Byte) :
    (setRxrd v).getLsbD 1 = true ∧ ∀ k, k ≠ 1 → (setRxrd v).getLsbD k = v.getLsbD k := by
  refine ⟨?_, fun k hk => ?_⟩
  · rw [setRxrd_getLsbD]
    simp
  · rw [setRxrd_getLsbD]
    simp [hk]

theorem exec_advance (h : s.find s.self = some c) (n : BitVec 16) :
    exec (.advance n) s =
      if c.serial.active then
        if c.serial.clocksRemaining - (n.toNat : Int) ≤ 0 then s.completeTransfer (c.countDown n.toNat)
        else .next (s.put (c.countDown n.toNat))
      else .next s :=
  onSelf_some h _

theorem exec_advance_completes {n : BitVec 16} (h : s.find s.self = some c) (ha : c.serial.active = true)
    (hn : c.serial.clocksRemaining ≤ (n.toNat : Int)) :
    exec (.advance n) s = s.completeTransfer (c.countDown n.toNat) := by
  rw [exec_advance h, if_pos ha, if_pos (by omega)]

/-- With no peer a completion ends the transfer and discards the byte. -/
theorem advance_ran_unlinked {n : BitVec 16} (h : s.find s.self = some c) (ha : c.serial.active = true)
    (hn : c.serial.clocksRemaining ≤ (n.toNat : Int)) (hPeer : c.peer = none) :
    ∃ t, exec (.advance n) s = .next t ∧ Ran s t (c.countDown n.toNat).endTransfer [] [] := by
  refine ⟨_, (exec_advance_completes h ha hn).trans ?_, Ran.put h rfl⟩
  rw [State.completeTransfer, countDown_peer, hPeer]

/-- Settles O35: the three branches of ADVANCE with no delivery. -/
theorem advanceCountsDownAndCompletes : Obligations.AdvanceCountsDownAndCompletes := by
  intro s c n h
  refine ⟨fun ha => ⟨s, ?_, .refl h⟩, fun ha hn => ⟨_, ?_, Ran.put h rfl⟩, fun ha hn hPeer => ?_⟩
  · rw [exec_advance h, ha]
    rfl
  · rw [exec_advance h, if_pos ha, if_neg (by omega)]
    rfl
  · obtain ⟨t, hExec, hRan⟩ := advance_ran_unlinked h ha hn hPeer
    exact ⟨t, clearTxfl c.bank.port5, hExec, hRan, txfl_clearTxfl _, fun _ hk => clearTxfl_getLsbD_of_ne _ hk⟩

/-! ### Receive (R99) -/

/-- The controller after Receive, whether or not RON is set. -/
def Controller.afterReceive (c : Controller) (b : Byte) : Controller :=
  if ron c.bank.port5 then c.received b else c

/-- Receive with RON clear drops the byte and asks nothing. -/
theorem receive_off (hRon : c.bank.port5.getLsbD 5 = false) (b : Byte) :
    c.afterReceive b = c ∧ receiveEvents c = [] := by
  have hOff : ¬ ron c.bank.port5 = true := Bool.eq_false_iff.1 hRon
  exact ⟨if_neg hOff, if_neg fun h => hOff h.1⟩

/-- Receive with RON set stores the byte, and asks for the NMI exactly with INT set. -/
theorem receive_on (hRon : c.bank.port5.getLsbD 5 = true) (b : Byte) :
    c.afterReceive b = c.received b ∧ (c.bank.port5.getLsbD 3 = true → receiveEvents c = nmiEvents c) ∧
      (c.bank.port5.getLsbD 3 = false → receiveEvents c = []) :=
  ⟨if_pos hRon, fun hInt => if_pos ⟨hRon, hInt⟩, fun hInt => if_neg fun h => Bool.eq_false_iff.1 hInt h.2⟩

@[simp] theorem nmiEvents_received (c : Controller) (b : Byte) : nmiEvents (c.received b) = nmiEvents c := rfl

/-- Receive performed by the addressed controller. -/
theorem receive_ran (h : s.find s.self = some c) (b : Byte) :
    Ran s (s.receive c b) (c.afterReceive b) [] (receiveEvents c) := by
  unfold Controller.afterReceive receiveEvents
  have hStore := Ran.put (c' := c.received b) h rfl
  rcases receive_cases s c b with ⟨hRon, hEq⟩ | ⟨hRon, hInt, hEq⟩ | ⟨hRon, hInt, hEq⟩
  · simpa [hRon, hEq] using (Ran.refl h).diag c.config.id .dg4
  · simpa [hRon, hInt, hEq] using hStore
  · simpa [hRon, hInt, hEq] using hStore.nmiRequest (c.received b)

/-- Receive performed by another controller, after what the addressed one did. -/
theorem Ran.receive (h : Ran s t c rs es) (hp : p ≠ s.self) (hd : s.find p = some d) (b : Byte) :
    RanBoth s (t.receive d b) c p (d.afterReceive b) rs (es ++ receiveEvents d) := by
  unfold Controller.afterReceive receiveEvents
  have hStore := h.putPeer (d' := d.received b) hp hd rfl
  rcases receive_cases t d b with ⟨hRon, hEq⟩ | ⟨hRon, hInt, hEq⟩ | ⟨hRon, hInt, hEq⟩
  · simpa [hRon, hEq] using (h.both hp hd).diag d.config.id .dg4
  · simpa [hRon, hInt, hEq] using hStore
  · simpa [hRon, hInt, hEq] using hStore.nmiRequest (d.received b)

/-- Settles O37: RECEIVE is one Receive of the addressed controller. -/
theorem receiveStoresTheByteWhenEnabled : Obligations.ReceiveStoresTheByteWhenEnabled := by
  intro s c b h
  have hExec : exec (.receive b) s = .next (s.receive c b) := onSelf_some h _
  have hRan := receive_ran h b
  refine ⟨fun hRon => ?_, fun hRon => ?_⟩
  · obtain ⟨hSame, hNone⟩ := receive_off hRon b
    rw [hSame, hNone] at hRan
    exact ⟨_, hExec, hRan⟩
  · obtain ⟨hStored, hInt, hNoInt⟩ := receive_on hRon b
    obtain ⟨hRxrd, hOther⟩ := setRxrd_spec c.bank.port5
    rw [hStored] at hRan
    exact ⟨_, setRxrd c.bank.port5, _, hExec, hRan, hRxrd, hOther, hInt, hNoInt⟩

/-- A completion with a peer: the sender ends its transfer, then the peer performs Receive (R97, R98). -/
theorem advance_ran_linked {n : BitVec 16} (h : s.find s.self = some c) (hPeer : c.peer = some p)
    (hp : p ≠ s.self) (hd : s.find p = some d) (ha : c.serial.active = true)
    (hn : c.serial.clocksRemaining ≤ (n.toNat : Int)) :
    ∃ t, exec (.advance n) s = .next t ∧
      RanBoth s t (c.countDown n.toNat).endTransfer p (d.afterReceive c.serial.sendBuffer) []
        (.peerDelivery s.self p c.serial.sendBuffer :: receiveEvents d) := by
  have hEnd := Ran.put (c' := (c.countDown n.toNat).endTransfer) h rfl
  have hFound : (s.put (c.countDown n.toNat).endTransfer).find p = some d := (hEnd.others p hp).trans hd
  refine ⟨_, (exec_advance_completes h ha hn).trans ?_, (hEnd.emit _).receive hp hd _⟩
  rw [State.completeTransfer, countDown_peer, hPeer]
  exact deliver_next.2 ⟨d, hFound, rfl⟩

/-- Settles O36: the sender's own part, and the peer's Receive of the captured byte. -/
theorem advanceDeliversToThePeer : Obligations.AdvanceDeliversToThePeer := by
  intro s c d p n h hPeer hp hd ha hn
  obtain ⟨t, hExec, hRan⟩ := advance_ran_linked h hPeer hp hd ha hn
  refine ⟨t, _, _, clearTxfl c.bank.port5, _, hExec, hRan, rfl, txfl_clearTxfl _,
    fun _ hk => clearTxfl_getLsbD_of_ne _ hk, fun hRon => receive_off hRon _, fun hRon => ?_⟩
  obtain ⟨hStored, hInt, hNoInt⟩ := receive_on hRon c.serial.sendBuffer
  obtain ⟨hRxrd, hOther⟩ := setRxrd_spec d.bank.port5
  exact ⟨setRxrd d.bank.port5, hStored, hRxrd, hOther, hInt, hNoInt⟩

/-! ### LINK and UNLINK (R104, R105) -/

/-- Settles O43: the three branches of LINK. -/
theorem linkSetsTheReference : Obligations.LinkSetsTheReference := by
  intro s c other h
  rw [exec_link h]
  refine ⟨fun hSelf => ?_, fun hSelf hMem => ?_, fun hSelf hMem => ?_⟩
  · exact ⟨_, if_pos hSelf, (Ran.refl h).diag _ _⟩
  · rw [if_neg hSelf, if_pos hMem]
    exact ⟨_, rfl, Ran.put h rfl⟩
  · rw [if_neg hSelf, if_neg hMem]

/-- Settles O44: after an UNLINK a completion has no peer. -/
theorem unlinkClearsTheReference : Obligations.UnlinkClearsTheReference := by
  intro s c h
  have hRan := Ran.put (c' := { c with peer := none }) h rfl
  refine ⟨_, onSelf_some h _, hRan, fun n ha hn => ?_⟩
  obtain ⟨u, hExec, hAdvance⟩ := advance_ran_unlinked (c := { c with peer := none }) hRan.own ha hn rfl
  exact ⟨u, clearTxfl c.bank.port5, hExec, hAdvance, txfl_clearTxfl _,
    fun _ hk => clearTxfl_getLsbD_of_ne _ hk⟩

/-! ### SAVE and LOAD (R110, R111) -/

theorem exec_load (h : s.find s.self = some c) (b0 b1 : Byte) :
    exec (.load b0 b1) s =
      if c.serial.active then .refused .loadDuringTransfer
      else .next (s.put ((c.setReg .port3F b0).setReg .port3FHC b1)) :=
  onSelf_some h _

/-- Settles O47: LOAD stores on an idle controller and is refused on an active one. -/
theorem loadStoresTheShadows : Obligations.LoadStoresTheShadows := by
  intro s c b0 b1 h
  rw [exec_load h]
  refine ⟨fun ha => ⟨_, if_neg (by simp [ha]), Ran.put h rfl⟩, fun ha => if_pos ha⟩

/-- Settles O48: SAVE answers with the shadows as they are, and LOAD stores its bytes as they are. -/
theorem saveThenLoadRestoresTheShadows : Obligations.SaveThenLoadRestoresTheShadows := by
  intro s t c h hSave
  obtain rfl := Host.Outcome.next.inj ((exec_save h).symm.trans hSave)
  refine ⟨c.bank.port3F, c.bank.port3FHC, rfl, fun s' c' hSelf hc' ha => ?_⟩
  obtain ⟨hLoad, -⟩ := loadStoresTheShadows s' c' c.bank.port3F c.bank.port3FHC hc'
  obtain ⟨t', hExec, hRan⟩ := hLoad ha
  exact ⟨t', _, hExec, (congrArg t'.find hSelf.symm).trans hRan.own, rfl, rfl⟩

/-! ### RESET (R129) -/

theorem exec_reset (h : s.find s.self = some c) :
    exec .reset s = .next (s.put (c.afterReset s.config.resetValue)) :=
  onSelf_some h _

/-- Settles O49: RESET stores the reset values, and storing them again is the same store. -/
theorem resetRestoresTheResetValues : Obligations.ResetRestoresTheResetValues := by
  intro s c h
  have hRan := Ran.put (c' := c.afterReset s.config.resetValue) h rfl
  have hAgain := exec_reset (s := s.put (c.afterReset s.config.resetValue)) hRan.own
  exact ⟨_, exec_reset h, hRan, hAgain.trans (congrArg Host.Outcome.next (put_put s _ _ rfl))⟩

end Sys2Proof.Machine
end

section
/-! SUPPORT. Rules of every command: when it is refused (R115), and which registers, status bits and other
controllers it may change (R18, R20, R28, R30): the statements O52 and O54 to O56. -/

namespace Sys2Proof.Machine

variable {i : Instr} {s t : State} {j : InstanceId} {c d : Controller} {r : Reg}

/-! ### Refusals (R115) -/

/-- A command addressed outside `INSTANCES` is refused, unless its code is reserved (R126). -/
theorem exec_of_not_found (hReserved : i.isReserved = false) (h : s.find s.self = none) :
    exec i s = .refused .unknownInstance := by
  cases i with
  | reserved9 r | reservedAB r | reservedCF r => cases hReserved
  | _ => exact onSelf_none h _

/-- With no dangling link every ADVANCE completes. -/
theorem advance_completes (hc : s.find s.self = some c) (hPresent : PeerPresent s c) (n : BitVec 16) :
    ∃ t, exec (.advance n) s = .next t := by
  rw [exec_advance hc]
  split_ifs
  · rw [State.completeTransfer, countDown_peer]
    cases hPeer : c.peer with
    | none => exact ⟨_, rfl⟩
    | some p =>
      obtain ⟨d, hd⟩ := hPresent p hPeer
      have hIds : (s.put (c.countDown n.toNat).endTransfer).ids = s.ids := put_ids hc rfl
      obtain ⟨d', hd'⟩ := mem_ids_iff.1 (hIds ▸ mem_ids_iff.2 ⟨d, hd⟩)
      exact ⟨_, deliver_next.2 ⟨d', hd', rfl⟩⟩
  · exact ⟨_, rfl⟩
  · exact ⟨_, rfl⟩

/-- With no dangling link every command but LINK, LOAD and the reserved ones completes. -/
theorem exec_completes (hc : s.find s.self = some c) (hPresent : PeerPresent s c)
    (hLink : ∀ other, i ≠ .link other) (hLoad : ∀ b0 b1, i ≠ .load b0 b1) (hReserved : i.isReserved = false) :
    ∃ t, exec i s = .next t := by
  by_cases hOut : i.isOut = true
  · obtain ⟨t, _, hExec, -⟩ := out_ran hc hOut
    exact ⟨t, hExec⟩
  cases i with
  | inP1 =>
    cases hPeer : c.peer with
    | none => exact ⟨_, exec_inP1_unlinked hc hPeer⟩
    | some p =>
      obtain ⟨d, hd⟩ := hPresent p hPeer
      exact ⟨_, exec_inP1_linked hc hPeer hd⟩
  | outP0 v | outP1 v | outP2 v | outP3 v | outP4 v | outP5 v | outP6 v => exact absurd rfl hOut
  | outMemctl a v | outIoctl a v | outPsg a v | outVdata a v | outVctl a v | outNullHi a v =>
    exact absurd rfl hOut
  | advance n => exact advance_completes hc hPresent n
  | link other => exact absurd rfl (hLink other)
  | load b0 b1 => exact absurd rfl (hLoad b0 b1)
  | reserved9 r | reservedAB r | reservedCF r => cases hReserved
  | _ => exact ⟨_, onSelf_some hc _⟩

/-- Each cause of the spec refuses its command by its name. -/
theorem refused_of_refusedBySpec {x : Refusal} (h : RefusedBySpec i s x) : exec i s = .refused x := by
  cases h with
  | reservedCommand hReserved => exact exec_of_isReserved hReserved s
  | unknownInstance hReserved hSelf => exact exec_of_not_found hReserved (find_none_iff.2 hSelf)
  | unknownPeer other hi hSelf hOther =>
    obtain ⟨c, hc⟩ := mem_ids_iff.1 hSelf
    have hNotSelf : other ≠ s.self := fun h => hOther (h ▸ hSelf)
    rw [hi, exec_link hc, if_neg hNotSelf, if_neg hOther]
  | loadDuringTransfer b0 b1 c hi hc ha => rw [hi, exec_load hc, if_pos ha]

/-- Settles O52: without a dangling link only LINK, LOAD and the two general causes can refuse. -/
theorem refusalsAreExactlyTheFourCases : Obligations.RefusalsAreExactlyTheFourCases := by
  intro i s x hLinks
  refine ⟨fun h => ?_, refused_of_refusedBySpec⟩
  have hEq {y : Refusal} (hy : RefusedBySpec i s y) : RefusedBySpec i s x :=
    Host.Outcome.refused.inj ((refused_of_refusedBySpec hy).symm.trans h) ▸ hy
  by_cases hReserved : i.isReserved = true
  · exact hEq (.reservedCommand hReserved)
  rw [Bool.not_eq_true] at hReserved
  by_cases hSelf : s.self ∈ s.ids
  · obtain ⟨c, hc⟩ := mem_ids_iff.1 hSelf
    cases i with
    | link other =>
      rw [exec_link hc] at h
      split_ifs at h with _ hOther
      exact hEq (.unknownPeer other rfl hSelf hOther)
    | load b0 b1 =>
      rw [exec_load hc] at h
      split_ifs at h with ha
      exact hEq (.loadDuringTransfer b0 b1 c rfl hc ha)
    | _ =>
      have hPresent : PeerPresent s c := fun p hp => mem_ids_iff.1 ((hLinks c (find_mem hc)).2 p hp)
      obtain ⟨t, hNext⟩ := exec_completes hc hPresent (by simp) (by simp) hReserved
      exact nomatch hNext.symm.trans h
  · exact hEq (.unknownInstance hReserved hSelf)

/-! ### Registers (R20) -/

/-- A register is kept by the commands that are not its writers. -/
theorem ownEffect_reg_kept (h : mayWrite i r = false) (s : State) (c : Controller) :
    (ownEffect i s c).reg r = c.reg r := by
  cases i with
  | inP4 | outP0 v | outP1 v | outP2 v | outP5 v | outP6 v =>
    exact bankRead_bankWrite_other _ (ne_of_beq_false h).symm _
  | outP3 v =>
    simp only [ownEffect]
    cases r with
    | port3 | port5 => cases h
    | _ => split_ifs <;> rfl
  | outIoctl a v | load b0 b1 =>
    cases r with
    | port3F | port3FHC => cases h
    | _ => rfl
  | advance n =>
    simp only [ownEffect]
    cases r with
    | port5 => cases h
    | _ => split_ifs <;> rfl
  | receive b =>
    simp only [ownEffect]
    cases r with
    | port4 | port5 => cases h
    | _ => split_ifs <;> rfl
  | link other => simp only [ownEffect]; split_ifs <;> rfl
  | reset => cases h
  | _ => rfl

/-- Receive writes Port4 and Port5 alone (R99). -/
theorem received_reg_kept (h4 : r ≠ .port4) (h5 : r ≠ .port5) (c : Controller) (b : Byte) :
    (c.received b).reg r = c.reg r := by
  cases r with
  | port4 => exact absurd rfl h4
  | port5 => exact absurd rfl h5
  | _ => rfl

/-- Settles O54: an own effect writes what the table allows, a delivery Port4 and Port5 of its receiver. -/
theorem registersChangeOnlyByTheirWriters : Obligations.RegistersChangeOnlyByTheirWriters := by
  intro i s t j c d r h hc hd hne
  have hOwn (hSame : (ownEffect i s c).reg r ≠ c.reg r) : mayWrite i r = true := by
    by_contra hNot
    exact hSame (ownEffect_reg_kept (Bool.eq_false_iff.2 hNot) s c)
  have hPort {e : Controller} {b : Byte} (hChanged : (e.received b).reg r ≠ e.reg r) :
      r = .port4 ∨ r = .port5 := by
    by_contra hNot
    rw [not_or] at hNot
    exact hChanged (received_reg_kept hNot.1 hNot.2 e b)
  obtain ⟨hj, rfl⟩ | ⟨-, rfl⟩ | ⟨n, e, hi, he, hDel, hPeer, hCase⟩ := controller_cases h hc hd
  · exact .inl ⟨hj, hOwn hne⟩
  · exact absurd rfl hne
  · have hTo := hDel.to he hPeer rfl
    obtain ⟨-, rfl⟩ | ⟨hj, -, rfl⟩ := hCase
    · exact .inr ⟨hPort hne, n, _, hi, hTo⟩
    · by_cases hSame : (ownEffect i s c).reg r = c.reg r
      · exact .inr ⟨hPort (fun h => hne (h.trans hSame)), n, _, hi, hTo⟩
      · exact .inl ⟨hj, hOwn hSame⟩

/-! ### Other controllers (R18) -/

/-- Settles O56: the frame of every case but a delivery, whose receiver has RON set. -/
theorem otherControllersOnlyReceive : Obligations.OtherControllersOnlyReceive := by
  intro i s t j h hj hne
  obtain ⟨c, hc, ⟨_, _, hRan⟩ | ⟨n, d, _, _, hi, hDel, -, hRan⟩ | ⟨_, _, _, -, -, hRan⟩⟩ := exec_cases h
  · exact absurd (hRan.others j hj) hne
  · by_cases hTo : j = d.config.id
    · subst hTo
      obtain ⟨hRxrd, hOther⟩ := setRxrd_spec d.bank.port5
      exact ⟨n, c.serial.sendBuffer, d, _, setRxrd d.bank.port5, hi, hDel.to hc hDel.peer rfl, hDel.found,
        hRan.peer, hDel.enabled, rfl, hRxrd, hOther⟩
    · exact absurd (hRan.others j hj hTo) hne
  · exact absurd (hRan.others j hj) hne

/-! ### The status bits of Port5 (R28, R30) -/

/-- The rules for the status bits of the controller `c` found under `j` when a command makes its Port5 `w`:
TXFL set and cleared, RXRD set and cleared, bit 2 changed. -/
def StatusRules (i : Instr) (s : State) (j : InstanceId) (c : Controller) (w : Byte) : Prop :=
  (c.bank.port5.getLsbD 0 = false → w.getLsbD 0 = true →
    j = s.self ∧ ∃ v, i = .outP3 v ∧ c.serial.active = false ∧
      (c.bank.port5.getLsbD 4 = true ∨ c.bank.port5.getLsbD 5 = true)) ∧
  (c.bank.port5.getLsbD 0 = true → w.getLsbD 0 = false →
    j = s.self ∧ (i = .reset ∨ ∃ n, i = .advance n ∧ c.serial.active = true ∧
      c.serial.clocksRemaining ≤ (n.toNat : Int))) ∧
  (c.bank.port5.getLsbD 1 = false → w.getLsbD 1 = true →
    (j = s.self ∧ i = .reset) ∨
    (c.bank.port5.getLsbD 5 = true ∧ ((j = s.self ∧ ∃ b, i = .receive b) ∨
      ∃ n b, i = .advance n ∧ DeliversTo s n.toNat j b))) ∧
  (c.bank.port5.getLsbD 1 = true → w.getLsbD 1 = false → j = s.self ∧ (i = .inP4 ∨ i = .reset)) ∧
  (w.getLsbD 2 ≠ c.bank.port5.getLsbD 2 → j = s.self ∧ i = .reset)

/-- A command that changes no status bit is within the rules. -/
theorem StatusRules.of_kept {w : Byte} (h : ∀ k, k < 3 → w.getLsbD k = c.bank.port5.getLsbD k) :
    StatusRules i s j c w := by
  rw [StatusRules, h 0 (by decide), h 1 (by decide), h 2 (by decide)]
  exact ⟨fun hOff hOn => absurd (hOff.symm.trans hOn) (by decide),
    fun hOn hOff => absurd (hOff.symm.trans hOn) (by decide),
    fun hOff hOn => absurd (hOff.symm.trans hOn) (by decide),
    fun hOn hOff => absurd (hOff.symm.trans hOn) (by decide), absurd rfl⟩

/-- A Receive on top, with RON set, is within the rules. -/
theorem StatusRules.setRxrd {w : Byte} (h : StatusRules i s j c w) (hRon : ron c.bank.port5 = true)
    (hFrom : (j = s.self ∧ ∃ b, i = .receive b) ∨ ∃ n b, i = .advance n ∧ DeliversTo s n.toNat j b) :
    StatusRules i s j c (setRxrd w) := by
  obtain ⟨hRxrd, hOther⟩ := setRxrd_spec w
  rw [StatusRules, hOther 0 (by decide), hOther 2 (by decide), hRxrd]
  obtain ⟨hStart, hEnd, -, -, hBit2⟩ := h
  exact ⟨hStart, hEnd, fun _ _ => .inr ⟨hRon, hFrom⟩, fun _ hOff => absurd hOff (by decide), hBit2⟩

/-- A command that changes TXFL alone, by a rule for it. -/
theorem StatusRules.of_txfl {w : Byte} (h : ∀ k, k ≠ 0 → w.getLsbD k = c.bank.port5.getLsbD k)
    (hStart : w.getLsbD 0 = true → j = s.self ∧ ∃ v, i = .outP3 v ∧ c.serial.active = false ∧
      (c.bank.port5.getLsbD 4 = true ∨ c.bank.port5.getLsbD 5 = true))
    (hEnd : w.getLsbD 0 = false → j = s.self ∧ (i = .reset ∨ ∃ n, i = .advance n ∧ c.serial.active = true ∧
      c.serial.clocksRemaining ≤ (n.toNat : Int))) :
    StatusRules i s j c w := by
  obtain ⟨-, -, hRest⟩ : StatusRules i s j c c.bank.port5 := .of_kept fun _ _ => rfl
  rw [StatusRules, h 1 (by decide), h 2 (by decide)]
  exact ⟨fun _ => hStart, fun _ => hEnd, hRest⟩

/-- OUT 0x03 sets TXFL on an idle controller with an enable set. -/
theorem outP3_statusRules (s : State) (c : Controller) (v : Byte) :
    StatusRules (.outP3 v) s s.self c (ownEffect (.outP3 v) s c).bank.port5 := by
  cases ha : c.serial.active with
  | true =>
    rw [ownEffect_outP3_of_active ha]
    exact .of_kept fun _ _ => rfl
  | false =>
    rw [ownEffect_outP3_of_idle ha]
    split_ifs with hEnable
    · have hOther (k : Nat) (hk : k ≠ 0) : (setTxfl c.bank.port5).getLsbD k = c.bank.port5.getLsbD k := by
        rw [setTxfl_getLsbD, decide_eq_false hk, Bool.or_false]
      refine .of_txfl hOther (fun _ => ⟨rfl, v, rfl, ha, Bool.or_eq_true_iff.1 hEnable⟩) fun hOff => ?_
      exact absurd ((txfl_setTxfl _).symm.trans hOff) (by decide)
    · exact .of_kept fun _ _ => rfl

/-- A completion clears TXFL. -/
theorem advance_statusRules (s : State) (c : Controller) (n : BitVec 16) :
    StatusRules (.advance n) s s.self c (ownEffect (.advance n) s c).bank.port5 := by
  simp only [ownEffect]
  split_ifs with ha hn
  · refine .of_txfl (fun k hk => clearTxfl_getLsbD_of_ne _ hk) (fun hOn => ?_)
      fun _ => ⟨rfl, .inr ⟨n, rfl, ha, hn⟩⟩
    exact absurd ((txfl_clearTxfl _).symm.trans hOn) (by decide)
  · exact .of_kept fun _ _ => rfl
  · exact .of_kept fun _ _ => rfl

/-- IN 0x04 clears RXRD. -/
theorem inP4_statusRules (s : State) (c : Controller) :
    StatusRules .inP4 s s.self c (clearRxrd c.bank.port5) := by
  have hClear : (clearRxrd c.bank.port5).getLsbD 1 = false := rxrd_clearRxrd _
  obtain ⟨hStart, hEnd, -, -, hBit2⟩ : StatusRules .inP4 s s.self c c.bank.port5 := .of_kept fun _ _ => rfl
  rw [StatusRules, clearRxrd_getLsbD_of_ne _ (by decide : 0 ≠ 1),
    clearRxrd_getLsbD_of_ne _ (by decide : 2 ≠ 1), hClear]
  exact ⟨hStart, hEnd, fun _ hOn => absurd hOn (by decide), fun _ _ => ⟨rfl, .inl rfl⟩, hBit2⟩

/-- The addressed controller's own effect is within the rules. -/
theorem ownEffect_statusRules (hWf : s.config.wf) (i : Instr) (c : Controller) :
    StatusRules i s s.self c (ownEffect i s c).bank.port5 := by
  cases i with
  | inP4 => exact inP4_statusRules s c
  | outP3 v => exact outP3_statusRules s c v
  | outP5 v =>
    refine .of_kept fun k hk => ?_
    exact (writeControl_getLsbD _ _ _ (by omega)).trans (if_pos hk)
  | advance n => exact advance_statusRules s c n
  | receive b =>
    have hKept : StatusRules (.receive b) s s.self c c.bank.port5 := .of_kept fun _ _ => rfl
    simp only [ownEffect]
    split_ifs with hRon
    · exact hKept.setRxrd hRon (.inl ⟨rfl, b, rfl⟩)
    · exact hKept
  | reset =>
    obtain ⟨hTxfl, -⟩ := hWf
    exact ⟨fun _ hOn => absurd (hTxfl.symm.trans hOn) (by decide), fun _ _ => ⟨rfl, .inl rfl⟩,
      fun _ _ => .inl ⟨rfl, rfl⟩, fun _ _ => ⟨rfl, .inr rfl⟩, fun _ => ⟨rfl, rfl⟩⟩
  | link other =>
    refine .of_kept fun _ _ => ?_
    simp only [ownEffect]
    split_ifs <;> rfl
  | _ => exact .of_kept fun _ _ => rfl

/-- Settles O55: an own effect and a Receive are each within the rules. -/
theorem statusBitsChangeOnlyByTheBlock : Obligations.StatusBitsChangeOnlyByTheBlock := by
  intro i s t j c d hWf h hc hd
  change StatusRules i s j c d.bank.port5
  have hKept : StatusRules i s j c c.bank.port5 := .of_kept fun _ _ => rfl
  obtain ⟨rfl, rfl⟩ | ⟨-, rfl⟩ | ⟨n, e, hi, he, hDel, hPeer, hCase⟩ := controller_cases h hc hd
  · exact ownEffect_statusRules hWf i c
  · exact hKept
  · have hFrom : ∃ n b, i = .advance n ∧ DeliversTo s n.toNat j b := ⟨n, _, hi, hDel.to he hPeer rfl⟩
    obtain ⟨-, rfl⟩ | ⟨rfl, -, rfl⟩ := hCase
    · exact hKept.setRxrd hDel.enabled (.inr hFrom)
    · exact (ownEffect_statusRules hWf i c).setRxrd hDel.enabled (.inr hFrom)

end Sys2Proof.Machine
end

section
/-! SUPPORT. Views of the state that no rule can tell apart: a view goes through the stores, the outputs,
Receive and the hand-over of a byte. The views are those without the idle counts (R35) and without the unread
registers (R38): the statements O41, O42 and O57. -/

namespace Sys2Proof.Machine

variable {s s' t : State} {c c' d : Controller} {j p : InstanceId}

/-! ### Views -/

/-- `F` sees every controller through `f`, and the rest of the state but perhaps its diagnostics. -/
structure View (F : State → State) (f : Controller → Controller) : Prop where
  config : ∀ c, (f c).config = c.config
  port5 : ∀ c, (f c).bank.port5 = c.bank.port5
  received : ∀ c b, f (c.received b) = (f c).received b
  self : ∀ s, (F s).self = s.self
  find : ∀ s j, (F s).find j = (s.find j).map f
  put : ∀ s c, F (s.put c) = (F s).put (f c)
  emit : ∀ s e, F (s.emit e) = (F s).emit e
  diag : ∀ s s' i k, F s = F s' → F (s.diag i k) = F (s'.diag i k)

variable {F : State → State} {f : Controller → Controller}

theorem View.put_congr (V : View F f) (h : F s = F s') (hc : f c = f c') : F (s.put c) = F (s'.put c') := by
  rw [V.put, V.put, h, hc]

theorem View.emit_congr (V : View F f) (h : F s = F s') (e : Event) : F (s.emit e) = F (s'.emit e) := by
  rw [V.emit, V.emit, h]

theorem View.config_congr (V : View F f) (hc : f c = f c') : c.config = c'.config := by
  rw [← V.config, hc, V.config]

theorem View.nmiRequest_congr (V : View F f) (h : F s = F s') (hc : f c = f c') :
    F (s.nmiRequest c) = F (s'.nmiRequest c') := by
  unfold State.nmiRequest
  rw [V.config_congr hc]
  split
  · exact V.emit_congr h _
  · exact V.diag _ _ _ _ h

/-- The three cases of Receive as one equation. -/
theorem receive_eq (s : State) (c : Controller) (b : Byte) :
    s.receive c b =
      if ron c.bank.port5 then
        if intEnable c.bank.port5 then (s.put (c.received b)).nmiRequest (c.received b)
        else s.put (c.received b)
      else s.diag c.config.id .dg4 := by
  rcases receive_cases s c b with ⟨hRon, hEq⟩ | ⟨hRon, hInt, hEq⟩ | ⟨hRon, hInt, hEq⟩
  · simp [hEq, hRon]
  · simp [hEq, hRon, hInt]
  · simp [hEq, hRon, hInt]

/-- Receive reads Port5 and the configuration alone (R99). -/
theorem View.receive_congr (V : View F f) (h : F s = F s') (hc : f c = f c') (b : Byte) :
    F (s.receive c b) = F (s'.receive c' b) := by
  have hPort5 : c.bank.port5 = c'.bank.port5 := by rw [← V.port5, hc, V.port5]
  have hReceived : f (c.received b) = f (c'.received b) := by rw [V.received, hc, V.received]
  rw [receive_eq, receive_eq, hPort5, V.config_congr hc]
  split_ifs
  · exact V.nmiRequest_congr (V.put_congr h hReceived) hReceived
  · exact V.put_congr h hReceived
  · exact V.diag _ _ _ _ h

/-- A hand-over finds its receiver through the view (R98). -/
theorem View.deliver_congr (V : View F f) (h : F s = F s') (p : InstanceId) (b : Byte) :
    mapNext F (s.deliver p b) = mapNext F (s'.deliver p b) := by
  have hFind : (s.find p).map f = (s'.find p).map f := by rw [← V.find, h, V.find]
  have hSelf : s.self = s'.self := by rw [← V.self, h, V.self]
  unfold State.deliver
  cases hd : s.find p with
  | none =>
    rw [hd, Option.map_none, eq_comm, Option.map_eq_none_iff] at hFind
    rw [hFind]
  | some d =>
    rw [hd, Option.map_some, eq_comm, Option.map_eq_some_iff] at hFind
    obtain ⟨d', hd', hEq⟩ := hFind
    simp only [hd', hSelf]
    exact congrArg Host.Outcome.next (V.receive_congr (V.emit_congr h _) hEq.symm b)

/-! ### The view without the idle counts (R35) -/

theorem forgetIdleCount_config (c : Controller) : c.forgetIdleCount.config = c.config := by
  unfold Controller.forgetIdleCount
  split <;> rfl

theorem forgetIdleCount_received (c : Controller) (b : Byte) :
    (c.received b).forgetIdleCount = c.forgetIdleCount.received b := by
  by_cases ha : c.serial.active = true
  · rw [Controller.forgetIdleCount, Controller.forgetIdleCount, received_serial, if_pos ha, if_pos ha]
  · rw [Controller.forgetIdleCount, Controller.forgetIdleCount, received_serial, if_neg ha, if_neg ha]
    rfl

theorem view_forgetIdleCounts : View State.forgetIdleCounts Controller.forgetIdleCount where
  config := forgetIdleCount_config
  port5 c := by unfold Controller.forgetIdleCount; split <;> rfl
  received := forgetIdleCount_received
  self _ := rfl
  find s j := find?_map _ (fun c => congrArg InstanceConfig.id (forgetIdleCount_config c)) s.controllers j
  put s c := by
    have hMap := map_putIn Controller.forgetIdleCount
      (fun c => congrArg InstanceConfig.id (forgetIdleCount_config c)) s.controllers c
    simp only [State.forgetIdleCounts, State.put, hMap]
  emit _ _ := rfl
  diag _ _ _ _ h := h

/-! ### Two advances (R96) -/

theorem advanceBy_idle (hc : s.find s.self = some c) (ha : c.serial.active = false) (n : Nat) :
    s.advanceBy n = .next s :=
  (onSelf_some hc _).trans (if_neg (by simp [ha]))

theorem advanceBy_counts {n : Nat} (hc : s.find s.self = some c) (ha : c.serial.active = true)
    (hn : (n : Int) < c.serial.clocksRemaining) : s.advanceBy n = .next (s.put (c.countDown n)) :=
  (onSelf_some hc _).trans ((if_pos ha).trans (if_neg (not_le.2 (Int.sub_pos.2 hn))))

theorem advanceBy_completes {n : Nat} (hc : s.find s.self = some c) (ha : c.serial.active = true)
    (hn : c.serial.clocksRemaining ≤ (n : Int)) : s.advanceBy n = s.completeTransfer (c.countDown n) :=
  (onSelf_some hc _).trans ((if_pos ha).trans (if_pos (sub_nonpos.2 hn)))

theorem receive_self (s : State) (c : Controller) (b : Byte) : (s.receive c b).self = s.self := by
  rw [receive_eq]
  split_ifs
  · exact nmiRequest_self _ _
  · rfl
  · rfl

/-- Receive keeps the activity of every controller. -/
theorem receive_keeps_active (hd : s.find p = some d) (b : Byte) {e : Controller} (he : s.find j = some e) :
    ∃ e', (s.receive d b).find j = some e' ∧ e'.serial.active = e.serial.active := by
  have hPut : ∃ e', (s.put (d.received b)).find j = some e' ∧ e'.serial.active = e.serial.active := by
    by_cases hj : d.config.id = j
    · obtain rfl : d = e := Option.some.inj (hd.symm.trans ((find_id hd).symm.trans hj ▸ he))
      exact ⟨_, find_put_own he hj, rfl⟩
    · exact ⟨e, (find_put_other (c := d.received b) hj).trans he, rfl⟩
  rw [receive_eq]
  split_ifs
  · rwa [find_nmiRequest]
  · exact hPut
  · exact ⟨e, he, rfl⟩

/-- After a completion the sender is idle. -/
theorem completeTransfer_idle (hc : s.find s.self = some c) (n : Nat)
    (h : s.completeTransfer (c.countDown n) = .next t) :
    ∃ e, t.find t.self = some e ∧ e.serial.active = false := by
  have hEnd : (s.put (c.countDown n).endTransfer).find s.self = some (c.countDown n).endTransfer :=
    (Ran.put (c' := (c.countDown n).endTransfer) hc rfl).own
  rw [State.completeTransfer, countDown_peer] at h
  split at h
  · obtain ⟨d, hd, rfl⟩ := deliver_next.1 h
    obtain ⟨e, he, hActive⟩ := receive_keeps_active
      (s := (s.put (c.countDown n).endTransfer).emit _) hd c.serial.sendBuffer hEnd
    exact ⟨e, (congrArg _ (receive_self _ _ _)).trans he, hActive⟩
  · obtain rfl := Host.Outcome.next.inj h
    exact ⟨_, hEnd, rfl⟩

/-- The count a completion leaves is all that the clocks beyond it change. -/
theorem completeTransfer_view (s : State) (c : Controller) (m n : Nat) :
    mapNext State.forgetIdleCounts (s.completeTransfer (c.countDown m)) =
      mapNext State.forgetIdleCounts (s.completeTransfer (c.countDown n)) := by
  have hPut : (s.put (c.countDown m).endTransfer).forgetIdleCounts =
      (s.put (c.countDown n).endTransfer).forgetIdleCounts := view_forgetIdleCounts.put_congr rfl rfl
  unfold State.completeTransfer
  rw [countDown_peer, countDown_peer]
  split
  · exact view_forgetIdleCounts.deliver_congr hPut _ _
  · exact congrArg Host.Outcome.next hPut

/-- A completion stores the sender over what was stored of it before. -/
theorem completeTransfer_put (s : State) (h : c.config.id = d.config.id) :
    (s.put d).completeTransfer c = s.completeTransfer c := by
  have hPut : (s.put d).put c.endTransfer = s.put c.endTransfer := put_put s _ _ h
  rw [State.completeTransfer, State.completeTransfer, hPut]

/-- An advance after a count goes on from there. -/
theorem advanceBy_after_count (hc : s.find s.self = some c) (ha : c.serial.active = true) (a b : Nat) :
    (s.put (c.countDown a)).advanceBy b = s.advanceBy (a + b) := by
  have hOwn : (s.put (c.countDown a)).find s.self = some (c.countDown a) :=
    (Ran.put (c' := c.countDown a) hc rfl).own
  have hSum : (c.countDown a).countDown b = c.countDown (a + b) := by
    simp [Controller.countDown, Int.sub_sub]
  by_cases hEnd : c.serial.clocksRemaining ≤ ((a + b : Nat) : Int)
  · have hLeft : c.serial.clocksRemaining - (a : Int) ≤ (b : Int) := by omega
    rw [advanceBy_completes hOwn ha hLeft, advanceBy_completes hc ha hEnd, hSum]
    exact completeTransfer_put s rfl
  · have hLeft : (b : Int) < c.serial.clocksRemaining - (a : Int) := by omega
    rw [advanceBy_counts hOwn ha hLeft, advanceBy_counts hc ha (not_le.1 hEnd), hSum]
    exact congrArg Host.Outcome.next (put_put s _ _ rfl)

/-- Settles O41: one advance leaves the sender idle, done or counting, and the other goes on from there. -/
theorem advanceSplitsIntoTwo : Obligations.AdvanceSplitsIntoTwo := by
  intro s a b
  cases hc : s.find s.self with
  | none => simp [State.advanceBy, onSelf_none hc, andThen]
  | some c =>
    cases ha : c.serial.active with
    | false =>
      rw [advanceBy_idle hc ha, advanceBy_idle hc ha]
      exact congrArg _ (advanceBy_idle hc ha b)
    | true =>
      by_cases hEnd : c.serial.clocksRemaining ≤ (a : Int)
      · rw [advanceBy_completes hc ha hEnd, advanceBy_completes hc ha (n := a + b) (by omega),
          completeTransfer_view s c (a + b) a]
        cases hDone : s.completeTransfer (c.countDown a) with
        | next t =>
          obtain ⟨e, he, hIdle⟩ := completeTransfer_idle hc a hDone
          exact congrArg _ (advanceBy_idle he hIdle b)
        | fault x => rfl
        | refused x => rfl
      · rw [advanceBy_counts hc ha (not_le.1 hEnd)]
        exact congrArg _ (advanceBy_after_count hc ha a b)

/-! ### The pseudo-instruction ADVANCE (R60) -/

/-- What follows a command need agree only up to a view. -/
theorem mapNext_andThen_congr {k k' : State → StepResult} (h : ∀ t, mapNext F (k t) = mapNext F (k' t))
    (r : StepResult) : mapNext F (andThen r k) = mapNext F (andThen r k') := by
  cases r with
  | next t => exact h t
  | fault x => rfl
  | refused x => rfl

/-- A list of advances, not empty, does what one advance of their sum does. -/
theorem execAll_advances (n : BitVec 16) (ns : List (BitVec 16)) (s : State) :
    mapNext State.forgetIdleCounts (execAll ((n :: ns).map .advance) s) =
      mapNext State.forgetIdleCounts (s.advanceBy ((n :: ns).map BitVec.toNat).sum) := by
  induction ns generalizing n s with
  | nil =>
    have hDone : andThen (s.advanceBy n.toNat) (execAll []) = s.advanceBy n.toNat := by
      cases s.advanceBy n.toNat <;> rfl
    exact congrArg _ hDone
  | cons m ms ih =>
    calc mapNext State.forgetIdleCounts (execAll ((n :: m :: ms).map .advance) s)
      _ = mapNext State.forgetIdleCounts
            (andThen (s.advanceBy n.toNat) fun t => t.advanceBy ((m :: ms).map BitVec.toNat).sum) :=
          mapNext_andThen_congr (fun t => ih m t) _
      _ = mapNext State.forgetIdleCounts (s.advanceBy ((n :: m :: ms).map BitVec.toNat).sum) :=
          advanceSplitsIntoTwo s _ _

/-- The counts of the lines that `ADVANCE n` expands to. -/
def advanceCounts (n : Nat) : List (BitVec 16) :=
  List.replicate (n / 65535) 65535 ++ if n % 65535 = 0 then [] else [BitVec.ofNat 16 (n % 65535)]

theorem advanceLines_eq_map (n : Nat) : advanceLines n = (advanceCounts n).map .advance := by
  unfold advanceLines advanceCounts
  rw [List.map_append, List.map_replicate]
  split_ifs <;> rfl

theorem sum_advanceCounts (n : Nat) : ((advanceCounts n).map BitVec.toNat).sum = n := by
  have hFull : (65535 : BitVec 16).toNat = 65535 := rfl
  have hParts : n / 65535 * 65535 + n % 65535 = n := Nat.div_add_mod' n 65535
  unfold advanceCounts
  rw [List.map_append, List.sum_append, List.map_replicate, List.sum_replicate, hFull, smul_eq_mul]
  split_ifs with hRest
  · simpa [hRest] using hParts
  · have hSmall : n % 65535 % 65536 = n % 65535 := by omega
    simpa [hSmall] using hParts

/-- Settles O42: the lines are advances, not none of them, whose counts make up `n`. -/
theorem advanceLinesAdvanceByTheirTotal : Obligations.AdvanceLinesAdvanceByTheirTotal := by
  intro s n hn
  have hSum := sum_advanceCounts n
  rw [advanceLines_eq_map]
  cases hCounts : advanceCounts n with
  | nil =>
    rw [hCounts, List.map_nil, List.sum_nil] at hSum
    omega
  | cons m ms =>
    rw [hCounts] at hSum
    rw [execAll_advances, hSum]

/-! ### The view without the unread registers (R20, R38) -/

theorem view_forgetUnread : View State.forgetUnread Controller.forgetUnread where
  config _ := rfl
  port5 _ := rfl
  received _ _ := rfl
  self _ := rfl
  find s j := find?_map Controller.forgetUnread (fun _ => rfl) s.controllers j
  put s c := by
    have hMap := map_putIn Controller.forgetUnread (fun _ => rfl) s.controllers c
    simp only [State.forgetUnread, State.put, hMap]
  emit _ _ := rfl
  diag _ _ i k h := congrArg (fun u : State => u.diag i k) h

/-- Two answers that differ in the unread registers alone. -/
def SameAnswer (r r' : StepResult) : Prop := mapNext State.forgetUnread r = mapNext State.forgetUnread r'

/-- A command addressed through the view: a missing controller is missing in both states. -/
theorem onSelf_forgetUnread {k k' : Controller → StepResult}
    (h : ∀ c, SameAnswer (k c) (k' c.forgetUnread)) (s : State) :
    SameAnswer (s.onSelf k) (s.forgetUnread.onSelf k') := by
  have hFind := view_forgetUnread.find s s.self
  cases hc : s.find s.self with
  | none =>
    rw [hc] at hFind
    rw [onSelf_none hc, onSelf_none hFind]
    rfl
  | some c =>
    rw [hc] at hFind
    rw [onSelf_some hc, onSelf_some hFind]
    exact h c

theorem forgetUnread_forgetUnread (s : State) : s.forgetUnread.forgetUnread = s.forgetUnread := by
  simp [State.forgetUnread, Function.comp_def, Controller.forgetUnread]

theorem forgetUnread_ids (s : State) : s.forgetUnread.ids = s.ids := by
  simp [State.ids, State.forgetUnread, Function.comp_def, Controller.forgetUnread]

/-- A store of controllers that differ in the unread registers alone. -/
theorem sameAnswer_put (s : State) (h : c.forgetUnread = c'.forgetUnread) :
    SameAnswer (.next (s.put c)) (.next (s.forgetUnread.put c')) :=
  congrArg Host.Outcome.next (view_forgetUnread.put_congr (forgetUnread_forgetUnread s).symm h)

theorem sameAnswer_nmiRequest (h : SameAnswer (.next s) (.next s')) (hc : c.forgetUnread = c'.forgetUnread) :
    SameAnswer (.next (s.nmiRequest c)) (.next (s'.nmiRequest c')) :=
  congrArg Host.Outcome.next (view_forgetUnread.nmiRequest_congr (Host.Outcome.next.inj h) hc)

theorem sameAnswer_emit (h : SameAnswer (.next s) (.next s')) (e : Event) :
    SameAnswer (.next (s.emit e)) (.next (s'.emit e)) :=
  congrArg Host.Outcome.next (view_forgetUnread.emit_congr (Host.Outcome.next.inj h) e)

theorem sameAnswer_answer (h : SameAnswer (.next s) (.next s')) (r : CommandResult) :
    SameAnswer (.next (s.answer r)) (.next (s'.answer r)) :=
  congrArg (fun u : State => Host.Outcome.next (u.answer r)) (Host.Outcome.next.inj h)

theorem sameAnswer_diag (h : SameAnswer (.next s) (.next s')) (i : InstanceId) (k : DiagCode) :
    SameAnswer (.next (s.diag i k)) (.next (s'.diag i k)) :=
  congrArg (fun u : State => Host.Outcome.next (u.diag i k)) (Host.Outcome.next.inj h)

theorem sameAnswer_state (s : State) : SameAnswer (.next s) (.next s.forgetUnread) :=
  congrArg Host.Outcome.next (forgetUnread_forgetUnread s).symm

theorem sameAnswer_ite {q : Prop} [Decidable q] {x x' y y' : StepResult} (h : SameAnswer x x')
    (h' : SameAnswer y y') : SameAnswer (if q then x else y) (if q then x' else y') := by
  split_ifs
  · exact h
  · exact h'

/-- A completion hands over through the view. -/
theorem sameAnswer_completeTransfer (s : State) (c : Controller) :
    SameAnswer (s.completeTransfer c) (s.forgetUnread.completeTransfer c.forgetUnread) := by
  have hPut : (s.put c.endTransfer).forgetUnread =
      (s.forgetUnread.put c.forgetUnread.endTransfer).forgetUnread :=
    view_forgetUnread.put_congr (forgetUnread_forgetUnread s).symm rfl
  have hPeer : c.forgetUnread.peer = c.peer := rfl
  unfold State.completeTransfer
  rw [hPeer]
  split
  · exact view_forgetUnread.deliver_congr hPut _ _
  · exact congrArg Host.Outcome.next hPut

/-- The merge of port 0x01 reads Port1, Port2 and Port5 of the peer (R64, R103). -/
theorem inP1_forgetUnread (s : State) : SameAnswer (exec .inP1 s) (exec .inP1 s.forgetUnread) := by
  have hDrawn := sameAnswer_emit (sameAnswer_state s) (.read s.self .port1PadByte s.draw)
  refine onSelf_forgetUnread (fun c => ?_) s
  have hPeer : c.forgetUnread.peer = c.peer := rfl
  rw [hPeer]
  cases c.peer with
  | none => exact sameAnswer_answer hDrawn _
  | some p =>
    simp only [view_forgetUnread.find s p]
    cases s.find p with
    | none => rfl
    | some d => exact sameAnswer_answer hDrawn _

/-- Every command answers alike with the unread registers forgotten before. -/
theorem exec_forgetUnread (i : Instr) (s : State) : SameAnswer (exec i s) (exec i s.forgetUnread) := by
  have hState := sameAnswer_state s
  cases i with
  | inP1 => exact inP1_forgetUnread s
  | inP2 | inP3 | inP5 | save => exact onSelf_forgetUnread (fun _ => sameAnswer_answer hState _) s
  | inP4 => exact onSelf_forgetUnread (fun _ => sameAnswer_answer (sameAnswer_put s (by rfl)) _) s
  | inP0 | inC0 | inDC | inC1 | inDD | inVcnt _ | inHcnt _ | inVdata _ | inVstat _ =>
    exact onSelf_forgetUnread (fun _ => sameAnswer_answer (sameAnswer_emit hState _) _) s
  | inNullLo a | inNullHi a =>
    exact onSelf_forgetUnread (fun _ => sameAnswer_answer (sameAnswer_diag hState _ _) _) s
  | outP0 _ | outP1 _ | outP5 _ | baud _ | unlink | reset =>
    exact onSelf_forgetUnread (fun _ => sameAnswer_put s (by rfl)) s
  | outP2 v =>
    exact onSelf_forgetUnread (fun _ => sameAnswer_ite
      (sameAnswer_nmiRequest (sameAnswer_put s (by rfl)) (by rfl)) (sameAnswer_put s (by rfl))) s
  | outP3 v =>
    exact onSelf_forgetUnread (fun _ => sameAnswer_ite (sameAnswer_diag hState _ _)
      (sameAnswer_ite (sameAnswer_put s (by rfl)) (sameAnswer_put s (by rfl)))) s
  | outP4 v => exact onSelf_forgetUnread (fun _ => hState) s
  | outP6 v => exact onSelf_forgetUnread (fun _ => sameAnswer_emit (sameAnswer_put s (by rfl)) _) s
  | outMemctl a v | outPsg a v | outVdata a v | outVctl a v =>
    exact onSelf_forgetUnread (fun _ => sameAnswer_emit hState _) s
  | outIoctl a v =>
    exact onSelf_forgetUnread (fun _ => sameAnswer_ite (sameAnswer_put s (by rfl))
      (sameAnswer_emit (sameAnswer_put s (by rfl)) _)) s
  | outNullHi a v => exact onSelf_forgetUnread (fun _ => sameAnswer_diag hState _ _) s
  | advance n =>
    exact onSelf_forgetUnread (fun _ => sameAnswer_ite
      (sameAnswer_ite (sameAnswer_completeTransfer s _) (sameAnswer_put s (by rfl))) hState) s
  | receive b =>
    refine onSelf_forgetUnread (fun c => ?_) s
    exact congrArg Host.Outcome.next
      (view_forgetUnread.receive_congr (forgetUnread_forgetUnread s).symm (by rfl) b)
  | link other =>
    refine onSelf_forgetUnread (fun c => ?_) s
    rw [forgetUnread_ids]
    exact sameAnswer_ite (sameAnswer_diag hState _ _) (sameAnswer_ite (sameAnswer_put s (by rfl)) rfl)
  | load b0 b1 => exact onSelf_forgetUnread (fun _ => sameAnswer_ite rfl (sameAnswer_put s (by rfl))) s
  | reserved9 r | reservedAB r | reservedCF r => rfl

/-- Settles O57: both states answer as the state they share with the unread registers forgotten. -/
theorem unreadRegistersAreNeverObserved : Obligations.UnreadRegistersAreNeverObserved := by
  intro i s s' h
  calc mapNext State.forgetUnread (exec i s)
    _ = mapNext State.forgetUnread (exec i s.forgetUnread) := exec_forgetUnread i s
    _ = mapNext State.forgetUnread (exec i s'.forgetUnread) := by rw [h]
    _ = mapNext State.forgetUnread (exec i s') := (exec_forgetUnread i s').symm

end Sys2Proof.Machine
end
